-- ==== Sys2Proof/Word.lean ====
section
/-! DEFINITION. The byte (00_scope.md R12): an unsigned 8-bit value, bits numbered 7 (most significant) to 0. -/

namespace Sys2Proof

/-- R12: a byte is an unsigned 8-bit value. -/
abbrev Byte := BitVec 8

/-- R12: `u8(v)` is `v mod 256`, as a byte. -/
def u8 (v : Nat) : Byte := BitVec.ofNat 8 v

end Sys2Proof
end

