-- ==== Sys2Proof/Config.lean ====
section
/-! DEFINITION. The build parameters of the block (00_scope.md R5 to R10), their default build, and the one free
value of the model (which ready agent moves when no schedule says so). -/

namespace Sys2Proof

/-- R9: which side of the link the block is; it decides which marker the encoder writes and which the
resynchronizer seeks. -/
inductive Role | host | device
deriving DecidableEq, Repr, Inhabited

/-- R8, R53: the order of the bytes of a multi-byte quantity (`MARK_ORDER`, `FIELD_ORDER`). -/
inductive ByteOrder | little | big
deriving DecidableEq, Repr, Inhabited

/-- R10: the checksum function, `CK_KIND`. -/
inductive CkKind | crc8 | xor8
deriving DecidableEq, Repr, Inhabited

/-- R143: what the boundary detector does at a marker whose frame is not yet wholly there, `INCOMPLETE_POLICY`. -/
inductive IncompletePolicy | hold | skip
deriving DecidableEq, Repr, Inhabited

/-- R5: the build parameters. `rxbufCap = none` is the unbounded receive buffer. -/
structure Config where
  hasAddr          : Bool
  markTx16         : BitVec 16
  markRx16         : BitVec 16
  markOrder        : ByteOrder
  role             : Role
  ckKind           : CkKind
  fieldOrder       : ByteOrder
  incompletePolicy : IncompletePolicy
  rxbufCap         : Option Nat
  nApp             : Nat
deriving DecidableEq, Repr

/-- R5: the default build. DESIGN CHOICE (log entry 2, unsafe): R5 gives `N_APP` no default ("any `N_APP ≥ 0`"); 249 is
one handler index for each of the 249 application codes of R171. -/
def Config.default : Config where
  hasAddr          := false
  markTx16         := 0xAA55
  markRx16         := 0x55AA
  markOrder        := .little
  role             := .host
  ckKind           := .crc8
  fieldOrder       := .little
  incompletePolicy := .hold
  rxbufCap         := none
  nApp             := 249

/-- R7: the only demand on the two marker constants is that they differ. -/
def Config.legal (c : Config) : Bool := c.markTx16 != c.markRx16

/-- R11, R205, R219, R240: who can take the next step: the caller context, the I/O context, the reset input, and the
environment's release of a wake when it closes the channel. -/
inductive Agent | caller | io | resetInput | channelClose
deriving DecidableEq, Repr, Inhabited

/-- FREE VALUE (log entry 6): R62 and R208 (e) leave open which of two agents that are both ready moves first. When
the schedule in the state is used up, the `n`-th such choice is this constant; nothing is known of it. -/
opaque Config.freeGrant : Nat → Agent

end Sys2Proof
end

