-- ==== Sys2Proof/Syntax.lean ====
section
/-! DEFINITION. The instructions: the eight classes of received frame (30_encoding.md R90) and the sixteen rows of the
operation select (R95), with their operands, and the two forms in which they reach the block: a frame on the wire, a
request on a port. -/

namespace Sys2Proof

/-- R117: one typed field of `ENCF`, a width in bytes and a value. -/
structure Field where
  width : Nat
  value : Nat
deriving DecidableEq, Repr

/-- One constructor per row of `spec/opcode_table.json`. A frame class carries the frame's own fields (R80, R81): the
address byte (no byte of the frame in variant NA), the command byte where the class is a range, the payload. -/
inductive Instr
  -- the frame classes, by command byte (R90)
  | ping   (addr : Byte) (payload : List Byte)
  | rsvdFa (addr : Byte) (payload : List Byte)
  | rsvdFb (addr : Byte) (payload : List Byte)
  | bufOvf (addr : Byte) (payload : List Byte)
  | crcErr (addr : Byte) (payload : List Byte)
  | text   (addr : Byte) (payload : List Byte)
  | wrong  (addr : Byte) (payload : List Byte)
  | app    (addr cmd : Byte) (payload : List Byte)
  -- the operations, by OPSEL (R95)
  | cksum    (bytes : List Byte)
  | verify   (frame : List Byte)
  | enc      (cmd addr : Byte) (payload : List Byte) (send : Bool)
  | encf     (cmd addr : Byte) (fields : List Field) (send : Bool)
  | decf     (frame : List Byte) (width : Nat)
  | lookup   (code : Byte)
  | reg      (code : Byte) (index : Nat)
  | lock
  | lastfRd
  | wakeAcq
  | wakeDrain
  | rst
  | rxpush   (chunk : List Byte)
  | scan
  | dispatch (frame : List Byte) (ok : Bool)
  | reservedF
deriving DecidableEq, Repr

/-- The operand lanes of a request. DESIGN CHOICE (log entry 3): R95 names the operands of each operation and gives
them no bit layout, so a request carries each kind of operand on a lane of its own; an operation reads the lanes its
row names and no other. -/
structure Operands where
  /-- `s`, `f`, `payload` or `chunk` -/
  bytes  : List Byte
  /-- `cmd`, or the command code `c` -/
  code   : Byte
  addr   : Byte
  /-- the field list of `ENCF` -/
  fields : List Field
  /-- the width `n`, or the handler index `k` -/
  num    : Nat
  /-- `send`, or `ok` -/
  flag   : Bool
deriving DecidableEq, Repr

/-- Every lane empty or zero. -/
def Operands.none : Operands := ⟨[], 0, 0, [], 0, false⟩

/-- One request on a port: the 4-bit operation select of R95 and the operands. -/
structure Request where
  opsel : BitVec 4
  args  : Operands
deriving DecidableEq, Repr

/-- What an instruction is encoded as: the bytes of a frame on the wire, or a request on a port. -/
inductive Code
  | frame   (bytes : List Byte)
  | request (r : Request)
deriving DecidableEq, Repr

/-- R25: the handler identifiers. `app k` stands for `H_APP(k)`. -/
inductive HandlerId | ping | bufOvf | crcErr | text | wrong | app (k : Nat)
deriving DecidableEq, Repr

/-- R142: what the boundary detector finds: a whole frame of `len` bytes at `off`, an incomplete one, or nothing. -/
inductive ScanResult
  | candidate (off len : Nat)
  | hold      (off len : Nat)
  | none
deriving DecidableEq, Repr

end Sys2Proof
end

