-- ==== Sys2Proof/Machine/Params.lean ====
section
/-! DEFINITION. What the build parameters determine: header and length bounds (00_scope.md R5), the marker bytes of the
two directions (R8, R9), the reserved command codes and the reset content of the dispatch table (10_state.md R24). -/

namespace Sys2Proof

/-- R5: `HDR = 4 + HAS_ADDR`, the bytes before the payload. -/
def Config.hdr (c : Config) : Nat := if c.hasAddr then 5 else 4

/-- R5: `MIN_LEN = HDR + 1`, the least legal frame length. -/
def Config.minLen (c : Config) : Nat := c.hdr + 1

/-- R5: `MAX_LEN = 255`, what the one-byte length field can say. -/
def Config.maxLen (_ : Config) : Nat := 255

/-- R5: `MAX_PAYLOAD = 255 - HDR - 1`. -/
def Config.maxPayload (c : Config) : Nat := c.maxLen - c.hdr - 1

/-- R8: the two wire bytes of a 16-bit marker constant, in frame order. -/
def markBytes (o : ByteOrder) (m : BitVec 16) : Byte × Byte :=
  match o with
  | .little => (m.extractLsb' 0 8, m.extractLsb' 8 8)
  | .big    => (m.extractLsb' 8 8, m.extractLsb' 0 8)

/-- R8, R9: `MARK_ENC = (M0, M1)`, the marker the encoder writes. -/
def Config.markEnc (c : Config) : Byte × Byte :=
  markBytes c.markOrder (match c.role with | .host => c.markTx16 | .device => c.markRx16)

/-- R8, R9: `MARK_DEC = (N0, N1)`, the marker the resynchronizer seeks. -/
def Config.markDec (c : Config) : Byte × Byte :=
  markBytes c.markOrder (match c.role with | .host => c.markRx16 | .device => c.markTx16)

/-- R24, R171: the seven codes the protocol keeps for itself, `0x00` and `0xFA .. 0xFF`. -/
def isReservedCode (c : Byte) : Bool := c == 0x00 || 0xFA ≤ c.toNat

/-- R24: the entry of code `c` after reset, and for the reserved codes for ever. -/
def resetHandler (c : Byte) : HandlerId :=
  if c = 0x00 then .ping
  else if c = 0xFC then .bufOvf
  else if c = 0xFD then .crcErr
  else if c = 0xFE then .text
  else .wrong

end Sys2Proof
end

