-- ==== Sys2Proof/Machine/Operands.lean ====
section
/-! DEFINITION. Operand forms: the frame as a byte space (30_encoding.md R80, R81, R89), slices (00_scope.md R12), typed
payload fields in `FIELD_ORDER` (20_memory.md R53), and the operand domains of the operations. -/

namespace Sys2Proof

/-! ### Byte sequences and typed fields -/

/-- R12: the slice `s[o .. o+n)`. -/
def slice (s : List Byte) (o n : Nat) : List Byte := (s.drop o).take n

/-- R12: `le_n`, the little-endian value of a byte sequence. -/
def leValue : List Byte → Nat
  | [] => 0
  | b :: s => b.toNat + 256 * leValue s

/-- R12: `bytes_le_n(v)`; for `v < 256^n` the inverse of `leValue`. -/
def leBytes : Nat → Nat → List Byte
  | 0, _ => []
  | n + 1, v => u8 v :: leBytes n (v / 256)

/-- R53: the value of a field's bytes in `FIELD_ORDER`. -/
def fieldValue (o : ByteOrder) (s : List Byte) : Nat :=
  match o with
  | .little => leValue s
  | .big    => leValue s.reverse

/-- R53, R117: a field's bytes in `FIELD_ORDER`. -/
def fieldBytes (o : ByteOrder) (f : Field) : List Byte :=
  match o with
  | .little => leBytes f.width f.value
  | .big    => (leBytes f.width f.value).reverse

/-- R117: fields are serialized in operand order with nothing between them. -/
def fieldsBytes (o : ByteOrder) (fs : List Field) : List Byte := fs.flatMap (fieldBytes o)

/-- R117: the domain of a field, `n ≥ 1` and `0 ≤ v < 256^n`. -/
def Field.fits (f : Field) : Bool := 1 ≤ f.width && f.value < 256 ^ f.width

/-! ### The frame -/

/-- R89, R116: the bytes before the checksum: marker, length, address if there is one, command, payload. The length is
the true byte count of the whole frame. -/
def frameBody (c : Config) (mark : Byte × Byte) (addr cmd : Byte) (payload : List Byte) : List Byte :=
  [mark.1, mark.2, u8 (c.hdr + payload.length + 1)] ++ (if c.hasAddr then [addr] else []) ++ [cmd] ++ payload

/-- R89, R116: the frame, its checksum covering every byte before it. -/
def buildFrame (c : Config) (mark : Byte × Byte) (addr cmd : Byte) (payload : List Byte) : List Byte :=
  frameBody c mark addr cmd payload ++ [ck c (frameBody c mark addr cmd payload)]

/-- R94: the frame the peer would send, `RXF`: the same construction with `MARK_DEC`. -/
def rxFrame (c : Config) (addr cmd : Byte) (payload : List Byte) : List Byte :=
  buildFrame c c.markDec addr cmd payload

/-- R80, R81: the command byte is at offset `HDR - 1`. -/
def frameCommand (c : Config) (f : List Byte) : Byte := f.getD (c.hdr - 1) 0

/-- R81: the address byte is at offset 3; a frame of variant NA has none, which reads as 0 here. -/
def frameAddress (c : Config) (f : List Byte) : Byte := if c.hasAddr then f.getD 3 0 else 0

/-- R80, R81: the payload, offsets `HDR .. L-2`. -/
def framePayload (c : Config) (f : List Byte) : List Byte := (f.drop c.hdr).dropLast

/-- R118: the payload region is long enough for a field of width `n`, and the frame for a payload region. -/
def decodeInRange (c : Config) (f : List Byte) (n : Nat) : Bool :=
  c.minLen ≤ f.length && n ≤ (framePayload c f).length

/-- R118: the value of the first `n` payload bytes. -/
def decodeField (c : Config) (f : List Byte) (n : Nat) : Nat :=
  fieldValue c.fieldOrder ((framePayload c f).take n)

/-! ### The boundary detector -/

/-- R142, R143: `FIND` from the offset `o` on, given the bytes of the buffer from that offset on. The tests are in the
order of R208 (b): marker, length bound, completeness. -/
def findFrom (c : Config) (o : Nat) : List Byte → ScanResult
  | [] => .none
  | b :: rest =>
    if (b :: rest).length < c.minLen then .none
    else if b = c.markDec.1 ∧ rest.getD 0 0 = c.markDec.2 ∧ c.minLen ≤ (rest.getD 1 0).toNat then
      if (rest.getD 1 0).toNat ≤ (b :: rest).length then .candidate o (rest.getD 1 0).toNat
      else match c.incompletePolicy with
        | .hold => .hold o (rest.getD 1 0).toNat
        | .skip => findFrom c (o + 1) rest
    else findFrom c (o + 1) rest

/-- R142: `FIND(B)`. The offset is the scan offset `SCAN_OFF` of 10_state.md R22. -/
def find (c : Config) (b : List Byte) : ScanResult := findFrom c 0 b

end Sys2Proof
end

