-- ==== Sys2Proof/WellFormed.lean ====
section
/-! DEFINITION. Which instructions can exist: the operand domains of the opcode table's rows. -/

namespace Sys2Proof

/-- A frame of these fields exists: the payload fits the one-byte length (30_encoding.md R86), and a build without the
address byte has no address to carry (R80). -/
def frameFieldsOk (c : Config) (addr : Byte) (payload : List Byte) : Bool :=
  payload.length ≤ c.maxPayload && (c.hasAddr || addr == 0)

/-- The operands are in the domain the instruction's rule states. Lengths are naturals without bound where the rule says
"any length" (R110, R116, R140). -/
def WellFormed (c : Config) : Instr → Bool
  | .ping addr payload     => frameFieldsOk c addr payload
  | .rsvdFa addr payload   => frameFieldsOk c addr payload
  | .rsvdFb addr payload   => frameFieldsOk c addr payload
  | .bufOvf addr payload   => frameFieldsOk c addr payload
  | .crcErr addr payload   => frameFieldsOk c addr payload
  | .text addr payload     => frameFieldsOk c addr payload
  | .wrong addr payload    => frameFieldsOk c addr payload
  | .app addr cmd payload  => frameFieldsOk c addr payload && !isReservedCode cmd
  | .cksum _               => true
  | .verify f              => !f.isEmpty
  | .enc _ _ _ _           => true
  | .encf _ _ fields _     => fields.all Field.fits
  | .decf _ _              => true
  | .lookup _              => true
  | .reg _ k               => k < c.nApp
  | .lock                  => true
  | .lastfRd               => true
  | .wakeAcq               => true
  | .wakeDrain             => true
  | .rst                   => true
  | .rxpush _              => true
  | .scan                  => true
  | .dispatch f ok         => !ok || c.hdr ≤ f.length
  | .reservedF             => true

end Sys2Proof
end

