-- ==== Sys2Proof/Decode.lean ====
section
/-! DEFINITION. Decoding and encoding. A frame is decoded from its bytes (30_encoding.md R80 to R90), a request from its
operation select (R95); both are total. The encoder is written from the same tables. -/

namespace Sys2Proof

/-- Why a byte sequence is no frame of the block: the invariants of R88 and the encodings R91 names. -/
inductive DecodeError
  /-- fewer than `MIN_LEN` bytes -/
  | tooShort
  /-- the first two bytes are not `MARK_DEC` -/
  | notStart
  /-- a length byte below `MIN_LEN` -/
  | illegalLength
  /-- the length byte is not the number of bytes -/
  | lengthMismatch
  /-- the last byte is not the checksum of the others -/
  | badChecksum
deriving DecidableEq, Repr

/-- What a decoder answers. -/
inductive Decoded
  | instr  (i : Instr)
  | reject (e : DecodeError)
deriving DecidableEq, Repr

/-- R90: the class of a verified frame, by its command byte. -/
def classify (addr cmd : Byte) (payload : List Byte) : Instr :=
  if cmd = 0x00 then .ping addr payload
  else if cmd = 0xFA then .rsvdFa addr payload
  else if cmd = 0xFB then .rsvdFb addr payload
  else if cmd = 0xFC then .bufOvf addr payload
  else if cmd = 0xFD then .crcErr addr payload
  else if cmd = 0xFE then .text addr payload
  else if cmd = 0xFF then .wrong addr payload
  else .app addr cmd payload

/-- R80, R81, R88, R90: the frame class of a byte sequence, the tests in the order of R208 (b), (c). -/
def decodeFrame (c : Config) (f : List Byte) : Decoded :=
  if f.length < c.minLen then .reject .tooShort
  else if (f.getD 0 0, f.getD 1 0) ≠ c.markDec then .reject .notStart
  else if (f.getD 2 0).toNat < c.minLen then .reject .illegalLength
  else if (f.getD 2 0).toNat ≠ f.length then .reject .lengthMismatch
  else if verifies c f then .instr (classify (frameAddress c f) (frameCommand c f) (framePayload c f))
  else .reject .badChecksum

/-- R95: the operation a request selects, its operands read from the lanes its row names. -/
def decodeRequest (r : Request) : Instr :=
  match r.opsel.toNat with
  | 0x0 => .cksum r.args.bytes
  | 0x1 => .verify r.args.bytes
  | 0x2 => .enc r.args.code r.args.addr r.args.bytes r.args.flag
  | 0x3 => .encf r.args.code r.args.addr r.args.fields r.args.flag
  | 0x4 => .decf r.args.bytes r.args.num
  | 0x5 => .lookup r.args.code
  | 0x6 => .reg r.args.code r.args.num
  | 0x7 => .lock
  | 0x8 => .lastfRd
  | 0x9 => .wakeAcq
  | 0xA => .wakeDrain
  | 0xB => .rst
  | 0xC => .rxpush r.args.bytes
  | 0xD => .scan
  | 0xE => .dispatch r.args.bytes r.args.flag
  | _   => .reservedF

/-- The decoder. -/
def decode (c : Config) : Code → Decoded
  | .frame f   => decodeFrame c f
  | .request r => .instr (decodeRequest r)

/-- R90, R95: the encoder. A frame class is the frame the peer sends, an operation is its request. -/
def encode (c : Config) : Instr → Code
  | .ping addr payload    => .frame (rxFrame c addr 0x00 payload)
  | .rsvdFa addr payload  => .frame (rxFrame c addr 0xFA payload)
  | .rsvdFb addr payload  => .frame (rxFrame c addr 0xFB payload)
  | .bufOvf addr payload  => .frame (rxFrame c addr 0xFC payload)
  | .crcErr addr payload  => .frame (rxFrame c addr 0xFD payload)
  | .text addr payload    => .frame (rxFrame c addr 0xFE payload)
  | .wrong addr payload   => .frame (rxFrame c addr 0xFF payload)
  | .app addr cmd payload => .frame (rxFrame c addr cmd payload)
  | .cksum b              => .request ⟨0x0, { Operands.none with bytes := b }⟩
  | .verify f             => .request ⟨0x1, { Operands.none with bytes := f }⟩
  | .enc cmd addr p send  => .request ⟨0x2, { Operands.none with code := cmd, addr := addr, bytes := p, flag := send }⟩
  | .encf cmd addr fs send =>
    .request ⟨0x3, { Operands.none with code := cmd, addr := addr, fields := fs, flag := send }⟩
  | .decf f n             => .request ⟨0x4, { Operands.none with bytes := f, num := n }⟩
  | .lookup code          => .request ⟨0x5, { Operands.none with code := code }⟩
  | .reg code k           => .request ⟨0x6, { Operands.none with code := code, num := k }⟩
  | .lock                 => .request ⟨0x7, Operands.none⟩
  | .lastfRd              => .request ⟨0x8, Operands.none⟩
  | .wakeAcq              => .request ⟨0x9, Operands.none⟩
  | .wakeDrain            => .request ⟨0xA, Operands.none⟩
  | .rst                  => .request ⟨0xB, Operands.none⟩
  | .rxpush chunk         => .request ⟨0xC, { Operands.none with bytes := chunk }⟩
  | .scan                 => .request ⟨0xD, Operands.none⟩
  | .dispatch f ok        => .request ⟨0xE, { Operands.none with bytes := f, flag := ok }⟩
  | .reservedF            => .request ⟨0xF, Operands.none⟩

/-! ### The words of the opcode table (log entry 18) -/

/-- The operand lanes when every operand bit is 0: a byte-sequence operand is eight zero bytes, every other operand is
zero or empty. The `f` of `DISPATCH` is by its rule (R173) a slice, so its marker and length bytes are there and the rest
is zero. -/
def zeroOperands (c : Config) (opsel : BitVec 4) : Operands :=
  if opsel = 0xE then
    { Operands.none with bytes := [c.markDec.1, c.markDec.2, u8 c.minLen] ++ List.replicate (c.minLen - 3) 0 }
  else { Operands.none with bytes := List.replicate 8 0 }

/-- The code that a table word stands for in a build. A row of 4 bits is an operation select. A row of 8 bits is a
command byte, whose frame has address 0 and an empty payload; if the host writes a 4-bit row in a whole byte, the table's
exact rows are tried in its order and `APP`, which the table marks as lowest priority, last. -/
def codeOfTableWord (c : Config) (nbits w : Nat) : Option Code :=
  let op : Code := .request ⟨BitVec.ofNat 4 w, zeroOperands c (BitVec.ofNat 4 w)⟩
  let fr : Code := .frame (rxFrame c 0 (u8 w) [])
  if nbits = 0 then none
  else if nbits ≤ 4 then (if w < 16 then some op else none)
  else if nbits ≤ 8 then
    (if 256 ≤ w then none
     else if isReservedCode (u8 w) then some fr
     else if w < 16 then some op
     else some fr)
  else none

/-- The instruction the decoder reads from a word of the opcode table, in the default build. -/
def decodeTableWord (nbits w : Nat) : Option Instr :=
  match codeOfTableWord Config.default nbits w with
  | none => none
  | some code =>
    match decode Config.default code with
    | .instr i  => some i
    | .reject _ => none

end Sys2Proof
end

