-- ==== Sys2Proof/Machine/State.lean ====
section
/-! DEFINITION. The state of one block instance (10_state.md R20), the outcomes of its operations, and the reset state
(R35). The fields the spec gives the block come first; the input ports, the schedule and the result log are the
model's own and say so. -/

namespace Sys2Proof.Machine

/-- R26: the phase bit. -/
inductive Phase | setup | run
deriving DecidableEq, Repr, Inhabited

/-- R27, R30: one dispatch: the handler chosen, the whole slice, its checksum verdict. It is what the event `DISP(h, f,
ok)` carries and what the last-frame latch holds. -/
structure Dispatched where
  handler : HandlerId
  frame   : List Byte
  ok      : Bool
deriving DecidableEq, Repr

/-- R29: the sticky fault flags, with their one member. -/
structure Flt where
  rxovf : Bool
deriving DecidableEq, Repr

/-- 60_exceptions.md R200: the synchronous error results, each with the information it returns. -/
inductive Exc
  /-- the payload's length exceeds `MAX_PAYLOAD` -/
  | encodingError (len : Nat)
  /-- the code is one of the seven reserved codes -/
  | registrationReserved (code : Byte)
  /-- the phase is `RUN` -/
  | registrationLocked (code : Byte)
  /-- the frame is shorter than `MIN_LEN`, or the width exceeds the payload -/
  | decodeRange
  /-- nothing has been dispatched since reset -/
  | lastfInvalid
  /-- a finite `RXBUF_CAP` would be exceeded -/
  | rxOverflow
deriving DecidableEq, Repr

/-- R95: the result of one operation; `raised` is the error result of an operation that ended in an exception. -/
inductive Result
  | byte    (b : Byte)
  | bit     (b : Bool)
  | frame   (f : List Byte)
  | number  (v : Nat)
  | handler (h : HandlerId)
  | done
  | latch   (d : Dispatched)
  | count   (n : Nat)
  | scan    (r : ScanResult)
  | raised  (e : Exc)
deriving DecidableEq, Repr

/-- The machine stops with no fault: "Nothing halts the block" (R204), and every exception of R200 is a next state. The
type has no constructor (log entry 20, safe). -/
inductive Fault
deriving DecidableEq, Repr

/-- R201: the reasons an operation is refused: it has no step, writes nothing, and has no meaning in the model. -/
inductive Refusal
  /-- Raised by an arm of `exec` whose instruction has no meaning yet; none is left. Safe. -/
  | notModelled (mnemonic : String)
  /-- Raised by `RXPUSH` while the phase is `SETUP` (R140). Safe. -/
  | notRunning
  /-- Raised by an operation whose operand is outside the domain its rule states (R114, R117, R171), by a frame class
  whose fields make no frame (R86, R90) and by `DISPATCH` of a sequence with no command byte. Safe. -/
  | badOperand
  /-- Raised by `OPSEL = 0xF`, which selects no operation (R96). Safe. -/
  | badOp
  /-- Raised by the step when a request on the command port selects `RXPUSH`, `SCAN` or `DISPATCH`, which R95 puts on
  other ports and which "cannot be issued from outside" (log entry 9). Safe. -/
  | wrongPort
deriving DecidableEq, Repr

/-- The state. -/
structure State where
  /-- R5, R6: the build parameters; a constant of the instance that no step changes (log entry 1). -/
  cfg      : Config
  /-- R21: `RXBUF`, oldest byte first. -/
  rxbuf    : List Byte
  /-- R23: the dispatch table `DT[0..255]`. -/
  dt       : Vector HandlerId 256
  /-- R26: `PHASE`. -/
  phase    : Phase
  /-- R27: `LASTF`; `none` is `valid = 0`, when the other fields hold no value. -/
  lastf    : Option Dispatched
  /-- R28: `WAKE_CNT`. -/
  wakeCnt  : Nat
  /-- R29: `FLT`. -/
  flt      : Flt
  /-- R30: `TXOUT`, the frames handed over for transmission, in issue order. -/
  txout    : List (List Byte)
  /-- R30: `DISPLOG`, the dispatch events, in dispatch order. -/
  displog  : List Dispatched
  /-- R145, 20_memory.md R63: a pass is in progress, that is the I/O context is inside the critical section that an
  `RXPUSH` opened (log entry 5). -/
  pass     : Bool
  /-- The requests waiting on the command port, oldest first (log entry 3). -/
  cmdPort  : List Request
  /-- The chunks waiting on the rx port, in arrival order (log entry 3). -/
  rxPort   : List (List Byte)
  /-- R241: the reset input is asserted (log entry 3). -/
  rstPin   : Bool
  /-- R219: the environment is closing the channel and will release a wake (log entry 17). -/
  closeReq : Bool
  /-- Who moves when more than one agent can, next choice first (log entry 6). -/
  sched    : List Agent
  /-- How many such choices were made after the schedule ran out (log entry 6). -/
  grants   : Nat
  /-- The results of the operations, in step order (log entry 4). -/
  results  : List Result
deriving DecidableEq, Repr

/-- R24, R241: the reset table, written as the source writes it: the wrong-command default, then the overrides. -/
def dtReset : Vector HandlerId 256 :=
  ((((Vector.replicate 256 HandlerId.wrong).set 0x00 .ping).set 0xFC .bufOvf).set 0xFD .crcErr).set 0xFE .text

/-- R35: the reset state of a block of build `c`, with nothing waiting on its ports. -/
def State.resetOf (c : Config) : State where
  cfg      := c
  rxbuf    := []
  dt       := dtReset
  phase    := .setup
  lastf    := none
  wakeCnt  := 0
  flt      := ⟨false⟩
  txout    := []
  displog  := []
  pass     := false
  cmdPort  := []
  rxPort   := []
  rstPin   := false
  closeReq := false
  sched    := []
  grants   := 0
  results  := []

/-- R35: the reset state of the default build. -/
def State.reset : State := State.resetOf Config.default

/-- What one operation answers. -/
abbrev Answer := Host.Outcome State Fault Refusal

end Sys2Proof.Machine
end

