-- ==== Sys2Proof/Machine/Ops.lean ====
section
/-! DEFINITION. The named operations over the state. Each write of a piece of state has one operation here; the meanings
of the instructions are built from them. -/

namespace Sys2Proof.Machine

/-! ### Results and exceptions -/

/-- R95: the operation's result is given to the agent that issued it. -/
def giveResult (r : Result) (s : State) : State := { s with results := s.results ++ [r] }

/-- R12, R200: `raise`: the operation ends at once with the named error result and writes no state of the block. What an
exception writes besides (only `RxOverflow` does) its rule says. -/
def raise (e : Exc) (s : State) : State := giveResult (.raised e) s

/-! ### The dispatch table -/

/-- R170: `DT[c]`. -/
def dtRead (s : State) (c : Byte) : HandlerId := s.dt[c.toNat]'c.isLt

/-- R12: `DT[c] <- h`. -/
def dtWrite (c : Byte) (h : HandlerId) (s : State) : State := { s with dt := s.dt.set c.toNat h c.isLt }

/-! ### The output traces and the wake counter -/

/-- R30: `emit TX(f)` when `send` is 1. -/
def emitTx (send : Bool) (f : List Byte) (s : State) : State :=
  if send then { s with txout := s.txout ++ [f] } else s

/-- R68: release one wake. -/
def wakeRelease (s : State) : State := { s with wakeCnt := s.wakeCnt + 1 }

/-! ### Dispatch, the block's trap entry (60_exceptions.md R209) -/

/-- R173: the handler chosen for a slice: by its command byte when the checksum verified, else the CRC-error handler. -/
def selectHandler (s : State) (f : List Byte) (ok : Bool) : HandlerId :=
  if ok then dtRead s (frameCommand s.cfg f) else .crcErr

/-- R173, R209: taking a dispatch: the latch, then the event, then the wake. No mode changes and nothing is masked. -/
def takeDispatch (f : List Byte) (ok : Bool) (s : State) : State :=
  let d : Dispatched := ⟨selectHandler s f ok, f, ok⟩
  wakeRelease { s with lastf := some d, displog := s.displog ++ [d] }

/-- R210: the return from a dispatch. There is no return operation: when the handler is done the iteration removes the
bytes `[0, n)` and the pass goes on. -/
def dropPrefix (n : Nat) (s : State) : State := { s with rxbuf := s.rxbuf.drop n }

/-! ### The receive buffer -/

/-- R21, R141: the buffer has room for the chunk. -/
def roomFor (s : State) (chunk : List Byte) : Bool :=
  match s.cfg.rxbufCap with
  | none => true
  | some cap => s.rxbuf.length + chunk.length ≤ cap

/-- R140: append, and open the pass. -/
def appendChunk (chunk : List Byte) (s : State) : State := { s with rxbuf := s.rxbuf ++ chunk, pass := true }

/-- R141: the chunk is lost and the sticky flag records it. -/
def rxOverflow (s : State) : State := raise .rxOverflow { s with flt := { s.flt with rxovf := true } }

/-- R145: the pass ends. -/
def endPass (s : State) : State := { s with pass := false }

/-- R241, R240: the block's own state at its reset values. The build parameters are no state; what waits on the ports, the
schedule and the result log belong to the outside and stay. -/
def resetBlock (s : State) : State :=
  { State.resetOf s.cfg with
    cmdPort := s.cmdPort, rxPort := s.rxPort, rstPin := s.rstPin, closeReq := s.closeReq,
    sched := s.sched, grants := s.grants, results := s.results }

/-! ### The byte space as memory -/

/-- R50: the only byte space with contents of its own is `RXBUF`, addressed by offset from its oldest byte. -/
abbrev Memory := List Byte

/-- R21: the form of the buffer: never longer than its capacity. A sequence has one form, so equal buffers are equal
lists (log entry 14). -/
def Memory.wf (cap : Option Nat) (m : Memory) : Bool :=
  match cap with
  | none => true
  | some n => m.length ≤ n

end Sys2Proof.Machine
end

