-- ==== Sys2Proof/Machine/Classes.lean ====
section
/-! DEFINITION. The classes of received frame (42_dispatch.md R180 to R187): `DISPATCH(f, 1)` of the frame `f` that
carries the class's command byte. The classes differ only in the entry of the table they select. -/

namespace Sys2Proof.Machine

/-- R173, R180 to R187: the frame of these fields arrives verified and is dispatched. Fields that make no frame (R86)
are no operand of a class. -/
def receive (addr cmd : Byte) (payload : List Byte) (s : State) : Answer :=
  if payload.length ≤ s.cfg.maxPayload then .next (takeDispatch (rxFrame s.cfg addr cmd payload) true s)
  else .refused .badOperand

/-- R180: `PING`. -/
def execPing (addr : Byte) (payload : List Byte) (s : State) : Answer := receive addr 0x00 payload s

/-- R182: `RSVD_FA`. -/
def execRsvdFa (addr : Byte) (payload : List Byte) (s : State) : Answer := receive addr 0xFA payload s

/-- R183: `RSVD_FB`. -/
def execRsvdFb (addr : Byte) (payload : List Byte) (s : State) : Answer := receive addr 0xFB payload s

/-- R184: `BUFOVF`. -/
def execBufOvf (addr : Byte) (payload : List Byte) (s : State) : Answer := receive addr 0xFC payload s

/-- R185: `CRCERR`, the peer's notice, whose event has `ok = 1`. -/
def execCrcErr (addr : Byte) (payload : List Byte) (s : State) : Answer := receive addr 0xFD payload s

/-- R186: `TEXT`. -/
def execText (addr : Byte) (payload : List Byte) (s : State) : Answer := receive addr 0xFE payload s

/-- R187: `WRONG`. -/
def execWrong (addr : Byte) (payload : List Byte) (s : State) : Answer := receive addr 0xFF payload s

/-- R181: `APP`, whose command byte is one of `0x01 .. 0xF9`. -/
def execApp (addr cmd : Byte) (payload : List Byte) (s : State) : Answer :=
  if isReservedCode cmd then .refused .badOperand else receive addr cmd payload s

end Sys2Proof.Machine
end

