-- ==== Sys2Proof/Machine/Codec.lean ====
section
/-! DEFINITION. The Frame Codec (40_codec.md): `CKSUM`, `VERIFY`, `ENC`, `ENCF`, `DECF`. It reads operands and the build
parameters only; its one effect beyond a result is the transmission of an encode with `send = 1`. -/

namespace Sys2Proof.Machine

/-- R116: the encoder, shared by `ENC` and `ENCF`: the length is checked against the one-byte field before anything is
built, and never truncated. -/
def encodeFrame (cmd addr : Byte) (payload : List Byte) (send : Bool) (s : State) : State :=
  if payload.length ≤ s.cfg.maxPayload then
    let f := buildFrame s.cfg s.cfg.markEnc addr cmd payload
    giveResult (.frame f) (emitTx send f s)
  else raise (.encodingError payload.length) s

/-- R110: `CKSUM`. -/
def execCksum (bytes : List Byte) (s : State) : Answer := .next (giveResult (.byte (ck s.cfg bytes)) s)

/-- R114: `VERIFY`; the empty sequence is outside the operand domain. -/
def execVerify (frame : List Byte) (s : State) : Answer :=
  if frame.isEmpty then .refused .badOperand
  else .next (giveResult (.bit (verifies s.cfg frame)) s)

/-- R116: `ENC`. -/
def execEnc (cmd addr : Byte) (payload : List Byte) (send : Bool) (s : State) : Answer :=
  .next (encodeFrame cmd addr payload send s)

/-- R117: `ENCF`, which is `ENC` after the fields are serialized; a field outside its domain is refused. -/
def execEncf (cmd addr : Byte) (fields : List Field) (send : Bool) (s : State) : Answer :=
  if fields.all Field.fits then .next (encodeFrame cmd addr (fieldsBytes s.cfg.fieldOrder fields) send s)
  else .refused .badOperand

/-- R118: `DECF`. -/
def execDecf (frame : List Byte) (width : Nat) (s : State) : Answer :=
  if decodeInRange s.cfg frame width then .next (giveResult (.number (decodeField s.cfg frame width)) s)
  else .next (raise .decodeRange s)

end Sys2Proof.Machine
end

