-- ==== Sys2Proof/Machine/Resync.lean ====
section
/-! DEFINITION. The Stream Resynchronizer (41_resync.md): `RXPUSH`, `SCAN`, and the dispatch step `DISPATCH`
(42_dispatch.md R173) that only `SCAN` performs. -/

namespace Sys2Proof.Machine

/-- R140, R141: `RXPUSH`: the append, which opens the pass; `NotRunning` is tested before `RxOverflow` (R208 (d)). The
iterations of the pass are steps of their own (R145, log entry 5). -/
def execRxpush (chunk : List Byte) (s : State) : Answer :=
  if s.phase = .setup then .refused .notRunning
  else if roomFor s chunk then .next (giveResult .done (appendChunk chunk s))
  else .next (rxOverflow s)

/-- R144: one iteration, up to its result: find, slice, validate, dispatch, drop; without a candidate the pass ends
(R145). -/
def scanOnce (s : State) : State :=
  match find s.cfg s.rxbuf with
  | .candidate o n =>
    let f := slice s.rxbuf o n
    dropPrefix (o + n) (takeDispatch f (verifies s.cfg f) s)
  | .hold _ _ => endPass s
  | .none     => endPass s

/-- R144: `SCAN`. -/
def execScan (s : State) : Answer := .next (giveResult (.scan (find s.cfg s.rxbuf)) (scanOnce s))

/-- R173: `DISPATCH`. A verified sequence with no command byte has no entry to look up; `SCAN` never hands one on. -/
def execDispatch (frame : List Byte) (ok : Bool) (s : State) : Answer :=
  if ok && frame.length < s.cfg.hdr then .refused .badOperand
  else .next (takeDispatch frame ok s)

/-- R145: the rest of a pass with no step of the caller context between its iterations: at most `n` of them. -/
def runPass : Nat → State → State
  | 0, s => s
  | n + 1, s => if s.pass then runPass n (giveResult (.scan (find s.cfg s.rxbuf)) (scanOnce s)) else s

/-- R146 (b): a pass on `n` bytes has at most `n / MIN_LEN` dispatching iterations, and one more. -/
def passBound (s : State) : Nat := s.rxbuf.length / s.cfg.minLen + 1

/-- R140: the whole `RXPUSH` as its pseudocode reads it, the append and then the pass to its end. The step takes the same
way in single steps; claims about whole pushes are stated of this. -/
def pushWhole (chunk : List Byte) (s : State) : Answer :=
  match execRxpush chunk s with
  | .next t    => .next (runPass (passBound t) t)
  | .fault r   => .fault r
  | .refused r => .refused r

end Sys2Proof.Machine
end

