-- ==== Sys2Proof/Machine/System.lean ====
section
/-! DEFINITION. `RST` (70_reset_and_hazards.md R241) and the operation select that selects nothing (30_encoding.md R96). -/

namespace Sys2Proof.Machine

/-- R241: `RST`. -/
def execRst (s : State) : Answer := .next (giveResult .done (resetBlock s))

/-- R96: `OPSEL = 0xF` is refused and nothing is written. -/
def execReservedF (_ : State) : Answer := .refused .badOp

end Sys2Proof.Machine
end

