-- ==== Sys2Proof/Machine/Table.lean ====
section
/-! DEFINITION. The dispatch table's operations and the latch (42_dispatch.md): `LOOKUP`, `REG`, `LOCK`, `LASTF_RD`. -/

namespace Sys2Proof.Machine

/-- R170: `LOOKUP`. -/
def execLookup (code : Byte) (s : State) : Answer := .next (giveResult (.handler (dtRead s code)) s)

/-- R171: `REG`. `Locked` is tested before `Reserved` (R208 (d)); an index outside its domain is refused before either
(log entry 10). -/
def execReg (code : Byte) (index : Nat) (s : State) : Answer :=
  if s.cfg.nApp ≤ index then .refused .badOperand
  else if s.phase = .run then .next (raise (.registrationLocked code) s)
  else if isReservedCode code then .next (raise (.registrationReserved code) s)
  else .next (giveResult .done (dtWrite code (.app index) s))

/-- R172: `LOCK`. -/
def execLock (s : State) : Answer := .next (giveResult .done { s with phase := .run })

/-- R174: `LASTF_RD`. -/
def execLastfRd (s : State) : Answer :=
  match s.lastf with
  | none   => .next (raise .lastfInvalid s)
  | some d => .next (giveResult (.latch d) s)

end Sys2Proof.Machine
end

