-- ==== Sys2Proof/Machine/Wake.lean ====
section
/-! DEFINITION. The wake signal (60_exceptions.md R205 to R207): `WAKE_ACQ`, `WAKE_DRAIN`. -/

namespace Sys2Proof.Machine

/-- R206: `WAKE_ACQ` takes one wake if there is one, and does not wait. -/
def execWakeAcq (s : State) : Answer :=
  if s.wakeCnt = 0 then .next (giveResult (.bit false) s)
  else .next (giveResult (.bit true) { s with wakeCnt := s.wakeCnt - 1 })

/-- R207: `WAKE_DRAIN` discards every pending wake and says how many there were. -/
def execWakeDrain (s : State) : Answer := .next (giveResult (.count s.wakeCnt) { s with wakeCnt := 0 })

end Sys2Proof.Machine
end

