-- ==== Sys2Proof/Machine/Dispatch.lean ====
section
/-! DEFINITION. One arm per instruction. -/

namespace Sys2Proof.Machine

def exec (i : Instr) (s : State) : Host.Outcome State Fault Refusal :=
  match i with
  | .ping addr payload => Sys2Proof.Machine.execPing addr payload s
  | .rsvdFa addr payload => Sys2Proof.Machine.execRsvdFa addr payload s
  | .rsvdFb addr payload => Sys2Proof.Machine.execRsvdFb addr payload s
  | .bufOvf addr payload => Sys2Proof.Machine.execBufOvf addr payload s
  | .crcErr addr payload => Sys2Proof.Machine.execCrcErr addr payload s
  | .text addr payload => Sys2Proof.Machine.execText addr payload s
  | .wrong addr payload => Sys2Proof.Machine.execWrong addr payload s
  | .app addr cmd payload => Sys2Proof.Machine.execApp addr cmd payload s
  | .cksum bytes => Sys2Proof.Machine.execCksum bytes s
  | .verify frame => Sys2Proof.Machine.execVerify frame s
  | .enc cmd addr payload send => Sys2Proof.Machine.execEnc cmd addr payload send s
  | .encf cmd addr fields send => Sys2Proof.Machine.execEncf cmd addr fields send s
  | .decf frame width => Sys2Proof.Machine.execDecf frame width s
  | .lookup code => Sys2Proof.Machine.execLookup code s
  | .reg code index => Sys2Proof.Machine.execReg code index s
  | .lock => Sys2Proof.Machine.execLock s
  | .lastfRd => Sys2Proof.Machine.execLastfRd s
  | .wakeAcq => Sys2Proof.Machine.execWakeAcq s
  | .wakeDrain => Sys2Proof.Machine.execWakeDrain s
  | .rst => Sys2Proof.Machine.execRst s
  | .rxpush chunk => Sys2Proof.Machine.execRxpush chunk s
  | .scan => Sys2Proof.Machine.execScan s
  | .dispatch frame ok => Sys2Proof.Machine.execDispatch frame ok s
  | .reservedF => Sys2Proof.Machine.execReservedF s

end Sys2Proof.Machine
end

