-- ==== Sys2Proof/Machine/Ports.lean ====
section
/-! DEFINITION. How the agents of the block take turns (00_scope.md R11, 20_memory.md R62, R63): who is ready, who is
granted the next step, and what an agent does with it. -/

namespace Sys2Proof.Machine

/-- R63, R241: the caller's operations that may not fall inside a pass: a transmission, and `RST`. Every other operation
of the caller touches neither `RXBUF` nor the channel and may fall between two iterations (log entry 7). -/
def waitsForPass : Instr → Bool
  | .enc _ _ _ send  => send
  | .encf _ _ _ send => send
  | .rst             => true
  | .ping _ _ | .rsvdFa _ _ | .rsvdFb _ _ | .bufOvf _ _ | .crcErr _ _ | .text _ _ | .wrong _ _ | .app _ _ _
  | .cksum _ | .verify _ | .decf _ _ | .lookup _ | .reg _ _ | .lock | .lastfRd | .wakeAcq | .wakeDrain
  | .rxpush _ | .scan | .dispatch _ _ | .reservedF => false

/-- R95: the operations of the command port. -/
def onCommandPort : Instr → Bool
  | .cksum _ | .verify _ | .enc _ _ _ _ | .encf _ _ _ _ | .decf _ _ | .lookup _ | .reg _ _ | .lock | .lastfRd
  | .wakeAcq | .wakeDrain | .rst | .reservedF => true
  | .ping _ _ | .rsvdFa _ _ | .rsvdFb _ _ | .bufOvf _ _ | .crcErr _ _ | .text _ _ | .wrong _ _ | .app _ _ _
  | .rxpush _ | .scan | .dispatch _ _ => false

/-- R63: who can take a step now. Inside a pass no chunk is appended, nothing is transmitted, the channel is not closed
and the block is not reset. -/
def ready (s : State) : Agent → Bool
  | .caller =>
    match s.cmdPort with
    | [] => false
    | r :: _ => !(s.pass && waitsForPass (decodeRequest r))
  | .io           => s.pass || !s.rxPort.isEmpty
  | .resetInput   => s.rstPin && !s.pass
  | .channelClose => s.closeReq && !s.pass

/-- The agents that are ready. -/
def readyAgents (s : State) : List Agent :=
  [Agent.caller, .io, .resetInput, .channelClose].filter (ready s)

/-- The agent a grant names, if it is one of those that are ready; else the first that is. -/
def granted (g : Agent) (a : Agent) (as : List Agent) : Agent := if g ∈ a :: as then g else a

/-- R62, R208 (e): who moves. One ready agent moves; of several, the one the schedule names, and when the schedule is used
up the one the free value names (log entry 6). -/
def nextAgent (s : State) : Option (Agent × State) :=
  match readyAgents s with
  | [] => none
  | [a] => some (a, s)
  | a :: b :: as =>
    match s.sched with
    | g :: gs => some (granted g a (b :: as), { s with sched := gs })
    | [] => some (granted (Config.freeGrant s.grants) a (b :: as), { s with grants := s.grants + 1 })

/-- The caller context issues its oldest request. -/
def callerStep (s : State) : Answer :=
  match s.cmdPort with
  | [] => .next s
  | r :: rest =>
    if onCommandPort (decodeRequest r) then exec (decodeRequest r) { s with cmdPort := rest }
    else .refused .wrongPort

/-- The I/O context runs one iteration of the pass it is in, or takes the oldest chunk and opens a pass. -/
def ioStep (s : State) : Answer :=
  if s.pass then exec .scan s
  else
    match s.rxPort with
    | [] => .next s
    | chunk :: rest => exec (.rxpush chunk) { s with rxPort := rest }

/-- What the granted agent does. R240: the reset input does what `RST` does. R219: closing the channel releases a wake
that no dispatch stands behind. -/
def act (a : Agent) (s : State) : Answer :=
  match a with
  | .caller       => callerStep s
  | .io           => ioStep s
  | .resetInput   => exec .rst { s with rstPin := false }
  | .channelClose => .next (wakeRelease { s with closeReq := false })

/-- One step: the granted agent acts; with nobody ready the block waits, unchanged (R35). -/
def stepOnce (s : State) : Answer :=
  match nextAgent s with
  | none => .next s
  | some (a, t) => act a t

/-! ### Placing an instruction where the next step fetches it (log entry 18) -/

/-- Nothing waits and no pass runs. -/
def quiet (s : State) : State :=
  { s with cmdPort := [], rxPort := [], rstPin := false, closeReq := false, pass := false }

/-- The instruction stands where its agent takes it next: a frame in `RXBUF` with a pass open, a request of the command
port at its head, a chunk on the rx port; `SCAN` needs an open pass, `DISPATCH` its slice in `RXBUF`. -/
def place (c : Code) (s : State) : State :=
  match c with
  | .frame f => { quiet s with rxbuf := f, phase := .run, pass := true }
  | .request r =>
    match decodeRequest r with
    | .rxpush chunk => { quiet s with rxPort := [chunk], phase := .run }
    | .scan         => { quiet s with phase := .run, pass := true }
    | .dispatch f _ => { quiet s with rxbuf := f, phase := .run, pass := true }
    | _             => { quiet s with cmdPort := [r] }

/-- A word of the opcode table, placed. -/
def placeWord (s : State) (nbits w : Nat) : State :=
  match codeOfTableWord s.cfg nbits w with
  | none => s
  | some c => place c s

end Sys2Proof.Machine
end

