-- ==== Sys2Proof/Machine/Step.lean ====
section
/-! DEFINITION. One step of the block, and the placing of a table word for the next step. -/

namespace Sys2Proof.Machine

/-- R11, R62: one atomic step of one agent. -/
def step (s : State) : Host.Outcome State Fault Refusal := stepOnce s

/-- The word stands where `step` takes its next instruction from (log entry 18). -/
def State.withFetchWord (s : State) (nbits w : Nat) : State := placeWord s nbits w

end Sys2Proof.Machine
end

