-- ==== Sys2Proof/Safety.lean ====
section
/-! DEFINITION. The terms the claims use: what a valid frame is (30_encoding.md R88), which offsets of the buffer can start
a frame (41_resync.md R142, R149), whole sequences of pushes, runs and resets, and the invariant that every step keeps. -/

namespace Sys2Proof.Machine

/-! ### Frames -/

/-- R88, the first three tests, which the boundary detector makes: long enough, the marker, the length byte. -/
def Framed (c : Config) (mark : Byte × Byte) (f : List Byte) : Prop :=
  c.minLen ≤ f.length ∧ f.getD 0 0 = mark.1 ∧ f.getD 1 0 = mark.2 ∧ (f.getD 2 0).toNat = f.length

/-- R88: `ValidFrame(f, (m0, m1))`. -/
def ValidFrame (c : Config) (mark : Byte × Byte) (f : List Byte) : Prop :=
  Framed c mark f ∧ f.getLast? = some (ck c f.dropLast)

/-! ### Offsets of the buffer -/

/-- R142: at offset `o` of `b`, inside the scanned range, stand the marker and a length byte of value `n ≥ MIN_LEN`. -/
def PlausibleAt (c : Config) (b : List Byte) (o n : Nat) : Prop :=
  o + c.minLen ≤ b.length ∧ b.getD o 0 = c.markDec.1 ∧ b.getD (o + 1) 0 = c.markDec.2 ∧
    (b.getD (o + 2) 0).toNat = n ∧ c.minLen ≤ n

/-- R149: the bytes present rule offset `o` out as a frame start for ever. -/
def Dead (c : Config) (b : List Byte) (o : Nat) : Prop :=
  (∃ x, b[o]? = some x ∧ x ≠ c.markDec.1) ∨ (∃ x, b[o + 1]? = some x ∧ x ≠ c.markDec.2) ∨
    (∃ x, b[o + 2]? = some x ∧ x.toNat < c.minLen)

/-! ### Sequences of pushes -/

/-- R148: chunks pushed one after another, each with its whole pass. -/
def pushAll : List (List Byte) → State → Answer
  | [], s => .next s
  | chunk :: rest, s =>
    match pushWhole chunk s with
    | .next t    => pushAll rest t
    | .fault r   => .fault r
    | .refused r => .refused r

/-! ### Runs and resets -/

/-- R62: `k` steps one after another, to the first stop. -/
def steps : Nat → State → Answer
  | 0, s => .next s
  | k + 1, s =>
    match step s with
    | .next t    => steps k t
    | .fault r   => .fault r
    | .refused r => .refused r

/-- R240, R241: the step from `s` to `t` served a reset, outside a pass: it took an `RST` request from the head of the
command port, or it served the reset input. -/
def ResetServed (s t : State) : Prop :=
  s.pass = false ∧
    ((∃ r rest, s.cmdPort = r :: rest ∧ decodeRequest r = .rst ∧ t.cmdPort = rest) ∨
     (s.rstPin = true ∧ t.rstPin = false))

/-! ### The invariant -/

/-- R24: the seven reserved entries of the table hold what they hold for ever. -/
def ReservedEntries (s : State) : Prop := ∀ c : Byte, isReservedCode c = true → dtRead s c = resetHandler c

/-- R173, R175: a dispatch in the log is a whole slice with the receive marker, its verdict is the checksum's, and its
handler is the one the table selects. -/
def GoodDispatch (s : State) (d : Dispatched) : Prop :=
  Framed s.cfg s.cfg.markDec d.frame ∧ d.ok = verifies s.cfg d.frame ∧ d.handler = selectHandler s d.frame d.ok

/-- What every step keeps. -/
structure Inv (s : State) : Prop where
  /-- R21: the buffer is within its capacity. -/
  withinCap : Memory.wf s.cfg.rxbufCap s.rxbuf = true
  /-- R24. -/
  reserved : ReservedEntries s
  /-- R25, R171: an application code's entry is the default or a registered handler. -/
  application : ∀ c : Byte, isReservedCode c = false → dtRead s c = .wrong ∨ ∃ k, k < s.cfg.nApp ∧ dtRead s c = .app k
  /-- R26: nothing has been received while the phase is `SETUP`. -/
  setupQuiet : s.phase = .setup →
    s.rxbuf = [] ∧ s.pass = false ∧ s.displog = [] ∧ s.lastf = none ∧ s.flt.rxovf = false
  /-- R146 (c): outside a pass the buffer holds no complete frame start. -/
  passDone : s.pass = false → ∀ o n, find s.cfg s.rxbuf ≠ .candidate o n
  /-- R27: the latch holds the last dispatch since reset. -/
  latchIsLast : s.lastf = s.displog.getLast?
  /-- R173, R175. -/
  dispatches : ∀ d ∈ s.displog, GoodDispatch s d
  /-- R116: everything sent is a valid frame of the send direction. -/
  sent : ∀ f ∈ s.txout, ValidFrame s.cfg s.cfg.markEnc f
  /-- R141: only a finite buffer overflows. -/
  overflowFinite : s.flt.rxovf = true → s.cfg.rxbufCap ≠ none

end Sys2Proof.Machine
end

