-- ==== Sys2Proof/Certificates/Slice0/Obligations.lean ====
section
/-! DEFINITION. The statements for the provers. Each docstring names the rule or section of the spec it is about. A
statement that rests on a decision of the spec (a mark `[decision: ... D<n>]`) or on a choice of the model says so. -/

open Sys2Proof Sys2Proof.Machine

/-! ### The checksum -/

/-- 40_codec.md R110: `CKSUM` completes in every state on every sequence, and its result is the checksum of the build's
kind; nothing else changes. The empty sequence gives 0; the order of the bytes matters to CRC-8 and not to the exclusive
or; the two examples of the source. -/
def Obligations.CksumGivesTheChecksum : Prop :=
  (∀ (b : List Byte) (s : State),
    (s.cfg.ckKind = .crc8 → exec (.cksum b) s = .next { s with results := s.results ++ [.byte (crc8 b)] }) ∧
    (s.cfg.ckKind = .xor8 → exec (.cksum b) s = .next { s with results := s.results ++ [.byte (xor8 b)] })) ∧
  crc8 [] = 0 ∧ xor8 [] = 0 ∧ crc8 [0x00] = 0x00 ∧ crc8 [0x01] = 0x1D ∧
  (∃ a b : List Byte, a.Perm b ∧ crc8 a ≠ crc8 b) ∧ (∀ a b : List Byte, a.Perm b → xor8 a = xor8 b)

/-- 40_codec.md section 1, the bitwise form: the checksum of a message extended by one byte is the register after eight
shifts of (register xor byte), where a shift reduces by `0x1D` exactly when the top bit leaves; the empty message gives 0.
Every shift is spelled out here on the number the register holds. -/
def Obligations.CrcRegisterStepsBitByBit : Prop :=
  crc8 [] = 0 ∧
  ∀ (s : List Byte) (b : Byte),
    (crc8 (s ++ [b])).toNat =
      Nat.iterate (fun c => if 128 ≤ c then (2 * c % 256) ^^^ 0x1D else 2 * c % 256) 8 ((crc8 s).toNat ^^^ b.toNat)

/-- 40_codec.md section 1, the table-driven form: it gives what the bitwise form gives, and entry `i` of the printed table
is the checksum of the one byte `i`. -/
def Obligations.TableDrivenCrcIsBitwiseCrc : Prop :=
  (∀ s : List Byte, crc8Table s = crc8 s) ∧ (∀ i : Byte, romRead i = crc8 [i]) ∧ crcRom.length = 256

/-- 40_codec.md section 1, laws (a) and (a') of the checksum: a sequence followed by its own checksum has checksum 0,
and no other last byte does that. Both kinds. -/
def Obligations.ChecksumResidueIsZero : Prop :=
  ∀ (c : Config) (s : List Byte) (b : Byte), ck c (s ++ [b]) = 0 ↔ b = ck c s

/-- 40_codec.md section 1, laws (b) and (b') of the checksum: it is linear over equal-length sequences. Both kinds. -/
def Obligations.ChecksumIsLinear : Prop :=
  ∀ (c : Config) (s t : List Byte), s.length = t.length →
    ck c (List.zipWith (fun x y => x ^^^ y) s t) = ck c s ^^^ ck c t

/-- 40_codec.md section 1, laws (d) and (d') of the checksum: one flipped bit anywhere changes it. Both kinds. -/
def Obligations.ChecksumSeesOneFlippedBit : Prop :=
  ∀ (c : Config) (p q : List Byte) (b : Byte) (k : Fin 8),
    ck c (p ++ [b ^^^ BitVec.twoPow 8 k] ++ q) ≠ ck c (p ++ [b] ++ q)

/-- 40_codec.md R114: `VERIFY` of a sequence with a last byte completes and answers whether that byte is the checksum of
the bytes before it, and nothing else: no marker and no length is looked at. Under CRC-8 that is whether the CRC of the whole
is 0; the one byte 0 verifies; the empty sequence is refused. -/
def Obligations.VerifyTestsTheTrailingByte : Prop :=
  ∀ (g : List Byte) (b : Byte) (s : State),
    exec (.verify (g ++ [b])) s = .next { s with results := s.results ++ [.bit (decide (b = ck s.cfg g))] } ∧
    (s.cfg.ckKind = .crc8 →
      exec (.verify (g ++ [b])) s = .next { s with results := s.results ++ [.bit (decide (crc8 (g ++ [b]) = 0))] }) ∧
    exec (.verify [0x00]) s = .next { s with results := s.results ++ [.bit true] } ∧
    exec (.verify []) s = .refused .badOperand

/-! ### The encoder and the field decoder -/

/-- 40_codec.md R116 with the layouts of 30_encoding.md: `ENC` completes on every command, address and payload. If the
payload fits, the result is marker, length, the address in the build that has one, command, payload, checksum, a valid frame
of the send direction, and it is handed over for transmission exactly when `send` is set; if not, `EncodingError` with the
payload's length and nothing emitted. -/
def Obligations.EncBuildsTheFrame : Prop :=
  ∀ (cmd addr : Byte) (payload : List Byte) (send : Bool) (s : State),
    (payload.length ≤ 250 - (if s.cfg.hasAddr then 1 else 0) →
      ∀ (n : Nat) (body f : List Byte),
        n = payload.length + (if s.cfg.hasAddr then 6 else 5) →
        body = (if s.cfg.hasAddr then [s.cfg.markEnc.1, s.cfg.markEnc.2, BitVec.ofNat 8 n, addr, cmd] ++ payload
                else [s.cfg.markEnc.1, s.cfg.markEnc.2, BitVec.ofNat 8 n, cmd] ++ payload) →
        f = body ++ [ck s.cfg body] →
        ValidFrame s.cfg s.cfg.markEnc f ∧
        exec (.enc cmd addr payload send) s =
          .next { s with txout := (if send then s.txout ++ [f] else s.txout), results := s.results ++ [.frame f] }) ∧
    (250 - (if s.cfg.hasAddr then 1 else 0) < payload.length →
      exec (.enc cmd addr payload send) s =
        .next { s with results := s.results ++ [.raised (.encodingError payload.length)] })

/-- 40_codec.md section 2 (corner cases of `ENC`) and 30_encoding.md R88: a frame the encoder builds is valid for the
send direction, has between `MIN_LEN` and 255 bytes, and its command and payload stand where the decoder looks. -/
def Obligations.EncodedFrameIsValid : Prop :=
  ∀ (c : Config) (mark : Byte × Byte) (addr cmd : Byte) (payload : List Byte), payload.length ≤ c.maxPayload →
    ValidFrame c mark (buildFrame c mark addr cmd payload) ∧
    (buildFrame c mark addr cmd payload).length = c.hdr + payload.length + 1 ∧
    (buildFrame c mark addr cmd payload).length ≤ 255 ∧
    frameCommand c (buildFrame c mark addr cmd payload) = cmd ∧
    framePayload c (buildFrame c mark addr cmd payload) = payload

/-- 40_codec.md section 2 (`ENCF`) and 20_memory.md section 2: `ENCF` serializes its fields in operand order, byte `i` of a
little-endian field being `v / 256^i`, the big-endian build the reverse, and then does what `ENC` does; a field outside its
domain is refused. (That a width of 0 is refused is log entry 11 of the model, and that the refusal comes before
`EncodingError` is log entry 10.) -/
def Obligations.EncfSerializesItsFields : Prop :=
  ∀ (cmd addr : Byte) (fields : List Field) (send : Bool) (s : State),
    ((∀ f ∈ fields, 1 ≤ f.width ∧ f.value < 256 ^ f.width) →
      ∀ payload : List Byte,
        payload = fields.flatMap (fun f =>
          let little := (List.range f.width).map (fun i => BitVec.ofNat 8 (f.value / 256 ^ i))
          if s.cfg.fieldOrder = .little then little else little.reverse) →
        payload.length = (fields.map Field.width).sum ∧
        exec (.encf cmd addr fields send) s = exec (.enc cmd addr payload send) s ∧
        ∃ t, exec (.encf cmd addr fields send) s = .next t) ∧
    ((∃ f ∈ fields, f.width = 0 ∨ 256 ^ f.width ≤ f.value) →
      exec (.encf cmd addr fields send) s = .refused .badOperand)

/-- 40_codec.md section 3: `DECF` completes on every sequence and width. In range, the result is the sum of the payload
bytes weighted by their place in the field order of the build; out of range, `DecodeRange` (decision D20 of the spec). -/
def Obligations.DecfReadsTheField : Prop :=
  ∀ (f : List Byte) (n : Nat) (s : State),
    (s.cfg.minLen ≤ f.length ∧ n + s.cfg.hdr + 1 ≤ f.length →
      (s.cfg.fieldOrder = .little →
        exec (.decf f n) s = .next { s with results := s.results ++
          [.number (((List.range n).map fun i => (f.getD (s.cfg.hdr + i) 0).toNat * 256 ^ i).sum)] }) ∧
      (s.cfg.fieldOrder = .big →
        exec (.decf f n) s = .next { s with results := s.results ++
          [.number (((List.range n).map fun i => (f.getD (s.cfg.hdr + i) 0).toNat * 256 ^ (n - 1 - i)).sum)] })) ∧
    (¬ (s.cfg.minLen ≤ f.length ∧ n + s.cfg.hdr + 1 ≤ f.length) →
      exec (.decf f n) s = .next { s with results := s.results ++ [.raised .decodeRange] })

/-- 40_codec.md section 4, the round trip: decoding at full width the frame that `ENCF` built of one field gives the
field's value, in both variants and both field orders. -/
def Obligations.DecfUndoesEncf : Prop :=
  ∀ (cmd addr : Byte) (n v : Nat) (s : State), 1 ≤ n → n ≤ s.cfg.maxPayload → v < 256 ^ n →
    ∃ f : List Byte,
      exec (.encf cmd addr [⟨n, v⟩] false) s = .next { s with results := s.results ++ [.frame f] } ∧
      exec (.decf f n) s = .next { s with results := s.results ++ [.number v] }

/-- 20_memory.md section 2, mixed widths: a narrower little-endian read of the same frame is the low bytes of the wider
one. -/
def Obligations.NarrowFieldIsLowBytes : Prop :=
  ∀ (f : List Byte) (m n v : Nat) (s : State), s.cfg.fieldOrder = .little → m ≤ n →
    exec (.decf f n) s = .next { s with results := s.results ++ [.number v] } →
    exec (.decf f m) s = .next { s with results := s.results ++ [.number (v % 256 ^ m)] }

/-! ### The dispatch table and the latch -/

/-- 42_dispatch.md R170: `LOOKUP` completes on every code in both phases with the entry of that code. -/
def Obligations.LookupReadsTheEntry : Prop :=
  ∀ (c : Byte) (s : State),
    exec (.lookup c) s = .next { s with results := s.results ++ [.handler (s.dt[c.toNat]'c.isLt)] }

/-- 42_dispatch.md section 1, `REG` (the phase bit is decision D14 of the spec): in `SETUP` an application code takes the
handler and no other entry changes; a reserved code and the phase `RUN` raise their errors and write nothing, `Locked`
first; an index outside its domain is refused. (That the refusal comes before `Locked` and `Reserved` is log entry 10 of the
model.) -/
def Obligations.RegWritesOneEntry : Prop :=
  ∀ (c : Byte) (k : Nat) (s : State),
    (k < s.cfg.nApp → s.phase = .setup → 1 ≤ c.toNat → c.toNat ≤ 0xF9 →
      ∃ t, exec (.reg c k) s = .next t ∧ dtRead t c = .app k ∧ (∀ d, d ≠ c → dtRead t d = dtRead s d) ∧
        t = { s with dt := t.dt, results := s.results ++ [.done] }) ∧
    (k < s.cfg.nApp → s.phase = .setup → (c.toNat = 0 ∨ 0xFA ≤ c.toNat) →
      exec (.reg c k) s = .next { s with results := s.results ++ [.raised (.registrationReserved c)] }) ∧
    (k < s.cfg.nApp → s.phase = .run →
      exec (.reg c k) s = .next { s with results := s.results ++ [.raised (.registrationLocked c)] }) ∧
    (s.cfg.nApp ≤ k → exec (.reg c k) s = .refused .badOperand)

/-- 42_dispatch.md section 1, `LOCK` (decision D14 of the spec): it completes in both phases and leaves `RUN`. -/
def Obligations.LockEntersRun : Prop :=
  ∀ s : State, exec .lock s = .next { s with phase := .run, results := s.results ++ [.done] }

/-- 42_dispatch.md section 1, `LASTF_RD` (decision D21 of the spec): it gives the latch and keeps it; before any dispatch
it raises `LastfInvalid`. -/
def Obligations.LastfRdReadsTheLatch : Prop :=
  ∀ s : State,
    (∀ d, s.lastf = some d → exec .lastfRd s = .next { s with results := s.results ++ [.latch d] }) ∧
    (s.lastf = none → exec .lastfRd s = .next { s with results := s.results ++ [.raised .lastfInvalid] })

/-! ### Dispatch and the frame classes -/

/-- 42_dispatch.md section 2, `DISPATCH` (decisions D17, D18 of the spec): on every slice it latches the frame with its
verdict and handler, logs the same as the event, and releases one wake; the handler is the command byte's entry when the
checksum verified and the CRC-error handler when it did not. -/
def Obligations.DispatchLatchesLogsAndWakes : Prop :=
  ∀ (f : List Byte) (s : State), s.cfg.minLen ≤ f.length →
    (∀ d : Dispatched, d = ⟨s.dt[(f.getD (s.cfg.hdr - 1) 0).toNat]'(BitVec.isLt _), f, true⟩ →
      exec (.dispatch f true) s =
        .next { s with lastf := some d, displog := s.displog ++ [d], wakeCnt := s.wakeCnt + 1 }) ∧
    (∀ d : Dispatched, d = ⟨.crcErr, f, false⟩ →
      exec (.dispatch f false) s =
        .next { s with lastf := some d, displog := s.displog ++ [d], wakeCnt := s.wakeCnt + 1 })

/-- 42_dispatch.md section 3, the notices and the text (R186, R187): a received buffer-overflow, CRC-error, text or
wrong-command frame selects the handler of that name, with the three effects of a dispatch, whatever the payload, the empty
one included; and none of these codes can be registered: `REG` names the code as reserved in `SETUP` and leaves the table
alone in both phases. -/
def Obligations.NoticeFramesSelectTheirHandler : Prop :=
  ∀ (a : Byte) (p : List Byte) (s : State), ReservedEntries s → p.length ≤ s.cfg.maxPayload →
    (∀ (i : Instr) (c : Byte) (h : HandlerId),
      (i, c, h) ∈ [(Instr.bufOvf a p, 0xFC, .bufOvf), (.crcErr a p, 0xFD, .crcErr), (.text a p, 0xFE, .text),
        (.wrong a p, 0xFF, .wrong)] →
      (∀ d : Dispatched, d = ⟨h, rxFrame s.cfg a c p, true⟩ →
        exec i s = .next { s with lastf := some d, displog := s.displog ++ [d], wakeCnt := s.wakeCnt + 1 }) ∧
      (∀ k, s.phase = .setup → k < s.cfg.nApp →
        exec (.reg c k) s = .next { s with results := s.results ++ [.raised (.registrationReserved c)] }) ∧
      (∀ k t, exec (.reg c k) s = .next t → t.dt = s.dt))

/-- 42_dispatch.md section 3, the ping class and the two reserved classes (decisions D13, D24 of the spec): `0x00` selects
the ping handler whatever the payload, `0xFA` and `0xFB` the wrong-command handler. -/
def Obligations.PingAndReservedFramesSelectTheirHandler : Prop :=
  ∀ (a : Byte) (p : List Byte) (s : State), ReservedEntries s → p.length ≤ s.cfg.maxPayload →
    ∀ (i : Instr) (c : Byte) (h : HandlerId),
      (i, c, h) ∈ [(Instr.ping a p, 0x00, HandlerId.ping), (.rsvdFa a p, 0xFA, .wrong), (.rsvdFb a p, 0xFB, .wrong)] →
      ∀ d : Dispatched, d = ⟨h, rxFrame s.cfg a c p, true⟩ →
        exec i s = .next { s with lastf := some d, displog := s.displog ++ [d], wakeCnt := s.wakeCnt + 1 }

/-- 42_dispatch.md section 3, the application class: a code of `0x01 .. 0xF9` selects its own entry, so after a
registration in `SETUP` it selects the handler registered. -/
def Obligations.AppFrameSelectsItsEntry : Prop :=
  ∀ (a c : Byte) (p : List Byte) (s : State), 1 ≤ c.toNat → c.toNat ≤ 0xF9 → p.length ≤ s.cfg.maxPayload →
    (∀ d : Dispatched, d = ⟨dtRead s c, rxFrame s.cfg a c p, true⟩ →
      exec (.app a c p) s =
        .next { s with lastf := some d, displog := s.displog ++ [d], wakeCnt := s.wakeCnt + 1 }) ∧
    (∀ k t, s.phase = .setup → k < s.cfg.nApp → exec (.reg c k) s = .next t →
      ∃ u, exec (.app a c p) t = .next u ∧ u.lastf = some ⟨.app k, rxFrame s.cfg a c p, true⟩)

/-! ### The resynchronizer

`runPass`, `pushWhole` and `pushAll` are what the steps do when only chunks wait (`Obligations.StepsOfAPushAreThePush`). -/

/-- 41_resync.md section 1 (decisions D10, D11, D14 of the spec): `RXPUSH` is refused in `SETUP`; in `RUN` it appends the
chunk and opens the pass if the capacity allows; if not it appends nothing, opens no pass, sets the sticky flag and raises
`RxOverflow`. (That the append is a step which only opens the pass, the iterations being later steps, is log entry 5 of the
model, and the log of the result is log entry 4.) -/
def Obligations.RxpushAppendsOrOverflows : Prop :=
  ∀ (chunk : List Byte) (s : State),
    (s.phase = .setup → exec (.rxpush chunk) s = .refused .notRunning) ∧
    (s.phase = .run → (∀ cap, s.cfg.rxbufCap = some cap → s.rxbuf.length + chunk.length ≤ cap) →
      exec (.rxpush chunk) s =
        .next { s with rxbuf := s.rxbuf ++ chunk, pass := true, results := s.results ++ [.done] }) ∧
    (s.phase = .run → ∀ cap, s.cfg.rxbufCap = some cap → cap < s.rxbuf.length + chunk.length →
      exec (.rxpush chunk) s =
        .next { s with flt := ⟨true⟩, results := s.results ++ [.raised .rxOverflow] })

/-- 41_resync.md section 2 (decisions D7, D8, D9 of the spec): the boundary detector finds the earliest offset that
qualifies. A candidate has no plausible start before it under `hold`, and only incomplete ones under `skip`; a hold is
the earliest plausible start and incomplete; otherwise there is nothing. -/
def Obligations.FindTakesTheEarliestStart : Prop :=
  ∀ (c : Config) (b : List Byte) (o n : Nat),
    (find c b = .candidate o n ↔
      PlausibleAt c b o n ∧ o + n ≤ b.length ∧
        ∀ p m, p < o → PlausibleAt c b p m → c.incompletePolicy = .skip ∧ b.length < p + m) ∧
    (find c b = .hold o n ↔
      c.incompletePolicy = .hold ∧ PlausibleAt c b o n ∧ b.length < o + n ∧
        ∀ p m, p < o → ¬ PlausibleAt c b p m) ∧
    (find c b = .none ↔
      ∀ p m, PlausibleAt c b p m → c.incompletePolicy = .skip ∧ b.length < p + m)

/-- 41_resync.md section 3 (decisions D11, D27 of the spec): `SCAN` completes in every state. On a candidate it dispatches
exactly the slice with its verdict and drops the slice and everything before it; otherwise it writes nothing of the block
and the pass ends. -/
def Obligations.ScanDispatchesAndDrops : Prop :=
  ∀ s : State,
    (∀ o n f t, find s.cfg s.rxbuf = .candidate o n → f = (s.rxbuf.drop o).take n →
      exec (.dispatch f (decide (f.getLast? = some (ck s.cfg f.dropLast)))) s = .next t →
      exec .scan s =
        .next { t with rxbuf := s.rxbuf.drop (o + n), results := s.results ++ [.scan (.candidate o n)] }) ∧
    ((∀ o n, find s.cfg s.rxbuf ≠ .candidate o n) →
      exec .scan s = .next { s with pass := false, results := s.results ++ [.scan (find s.cfg s.rxbuf)] }) ∧
    (∃ t, exec .scan s = .next t)

/-- 30_encoding.md section 3 with 41_resync.md section 3: the iteration runs the frame it found as an instruction. If the
slice decodes to the class `i`, the iteration does what `i` does and drops the prefix; if the decoder rejects it, the
reason is the checksum and the iteration does what `DISPATCH` of a failed frame does. -/
def Obligations.ScanRunsTheDecodedFrame : Prop :=
  ∀ (s : State) (o n : Nat), find s.cfg s.rxbuf = .candidate o n →
    (∀ i, decode s.cfg (.frame (slice s.rxbuf o n)) = .instr i →
      WellFormed s.cfg i = true ∧
      ∃ t, exec i s = .next t ∧
        exec .scan s =
          .next { t with rxbuf := s.rxbuf.drop (o + n), results := s.results ++ [.scan (.candidate o n)] }) ∧
    (∀ e, decode s.cfg (.frame (slice s.rxbuf o n)) = .reject e →
      e = .badChecksum ∧
      ∃ t, exec (.dispatch (slice s.rxbuf o n) false) s = .next t ∧ t.lastf = some ⟨.crcErr, slice s.rxbuf o n, false⟩ ∧
        exec .scan s =
          .next { t with rxbuf := s.rxbuf.drop (o + n), results := s.results ++ [.scan (.candidate o n)] })

/-- 41_resync.md section 4, progress: an iteration that dispatches shortens the buffer by at least `MIN_LEN` bytes and
logs one event; any other iteration leaves the buffer and the events and ends the pass. -/
def Obligations.IterationMakesProgress : Prop :=
  ∀ s t : State, exec .scan s = .next t →
    (t.rxbuf.length + s.cfg.minLen ≤ s.rxbuf.length ∧ t.displog.length = s.displog.length + 1 ∧ t.pass = s.pass) ∨
    (t.rxbuf = s.rxbuf ∧ t.displog = s.displog ∧ t.pass = false)

/-- 41_resync.md section 4, termination: the pass ends within one iteration more than there are whole minimum-length frames
in the buffer, dispatches at most that many frames, never lengthens the buffer, and leaves no candidate. -/
def Obligations.PassEnds : Prop :=
  ∀ s t : State, s.pass = true → t = runPass (s.rxbuf.length / s.cfg.minLen + 1) s →
    t.pass = false ∧ t.rxbuf.length ≤ s.rxbuf.length ∧
    t.displog.length ≤ s.displog.length + s.rxbuf.length / s.cfg.minLen ∧
    (∀ o n, find t.cfg t.rxbuf ≠ .candidate o n)

/-- 41_resync.md section 4, no progress without bytes: where no candidate is left, pushing an empty chunk changes nothing
of the block. -/
def Obligations.EmptyPushChangesNothing : Prop :=
  ∀ s : State, s.phase = .run → Inv s → s.pass = false →
    pushWhole [] s = .next { s with results := s.results ++ [.done, .scan (find s.cfg s.rxbuf)] }

/-- 41_resync.md section 4, garbage-prefix recovery: garbage in which no marker starts, then a valid frame, pushed into the
empty buffer, is exactly one dispatch of that frame and leaves the buffer empty. -/
def Obligations.GarbagePrefixIsRecovered : Prop :=
  ∀ (g f : List Byte) (s : State), s.phase = .run → s.pass = false → s.rxbuf = [] →
    (∀ cap, s.cfg.rxbufCap = some cap → g.length + f.length ≤ cap) →
    ValidFrame s.cfg s.cfg.markDec f →
    (∀ o, o < g.length →
      ¬ ((g ++ f).getD o 0 = s.cfg.markDec.1 ∧ (g ++ f).getD (o + 1) 0 = s.cfg.markDec.2)) →
    ∀ d : Dispatched, d = ⟨dtRead s (frameCommand s.cfg f), f, true⟩ →
      pushWhole (g ++ f) s =
        .next { s with
          lastf := some d, displog := s.displog ++ [d], wakeCnt := s.wakeCnt + 1,
          results := s.results ++ [.done, .scan (.candidate g.length f.length), .scan .none] }

/-- 41_resync.md section 4, split-frame reassembly (policy `hold`, decision D8 of the spec): a valid frame pushed in two
parts, cut anywhere, is dispatched exactly once, not before its last byte, and leaves the buffer empty. -/
def Obligations.SplitFrameIsReassembled : Prop :=
  ∀ (a b : List Byte) (s : State), s.phase = .run → s.pass = false → s.rxbuf = [] →
    s.cfg.incompletePolicy = .hold →
    (∀ cap, s.cfg.rxbufCap = some cap → a.length + b.length ≤ cap) →
    ValidFrame s.cfg s.cfg.markDec (a ++ b) →
    ∀ d : Dispatched, d = ⟨dtRead s (frameCommand s.cfg (a ++ b)), a ++ b, true⟩ →
      ∃ t u, pushWhole a s = .next t ∧ (b ≠ [] → t.displog = s.displog ∧ t.rxbuf = a) ∧
        pushWhole b t = .next u ∧ u.displog = s.displog ++ [d] ∧ u.lastf = some d ∧
        u.wakeCnt = s.wakeCnt + 1 ∧ u.rxbuf = []

/-- 41_resync.md section 4, chunking independence (policy `hold`, decision D8 of the spec): from any buffer, two chunks
pushed one after the other leave the block as their concatenation does: the same events, latch, wakes and buffer. -/
def Obligations.ChunkingDoesNotMatter : Prop :=
  ∀ (a b : List Byte) (s : State), s.phase = .run → s.cfg.incompletePolicy = .hold →
    (∀ cap, s.cfg.rxbufCap = some cap → s.rxbuf.length + a.length + b.length ≤ cap) →
    ∃ t u w, pushWhole a s = .next t ∧ pushWhole b t = .next u ∧ pushWhole (a ++ b) s = .next w ∧
      { u with results := [] } = { w with results := [] }

/-- 41_resync.md section 4, corrupted checksum: a framed sequence whose checksum fails, pushed into the empty buffer, is
reported once to the CRC-error handler and wholly consumed. -/
def Obligations.FailedChecksumIsReportedOnce : Prop :=
  ∀ (g : List Byte) (s : State), s.phase = .run → s.pass = false → s.rxbuf = [] →
    (∀ cap, s.cfg.rxbufCap = some cap → g.length ≤ cap) →
    Framed s.cfg s.cfg.markDec g → g.getLast? ≠ some (ck s.cfg g.dropLast) →
    ∀ d : Dispatched, d = ⟨.crcErr, g, false⟩ →
      pushWhole g s =
        .next { s with
          lastf := some d, displog := s.displog ++ [d], wakeCnt := s.wakeCnt + 1,
          results := s.results ++ [.done, .scan (.candidate 0 g.length), .scan .none] }

/-- 41_resync.md section 4, one flipped bit: a valid frame with one bit flipped in its address, command, payload or
checksum byte, pushed into the empty buffer, is one dispatch to the CRC-error handler, and the buffer is left empty. Both
checksum kinds, both variants, both policies. -/
def Obligations.FlippedBitIsReportedOnce : Prop :=
  ∀ (p q : List Byte) (b : Byte) (k : Fin 8) (s : State), s.phase = .run → s.pass = false → s.rxbuf = [] →
    (∀ cap, s.cfg.rxbufCap = some cap → p.length + q.length + 1 ≤ cap) →
    ValidFrame s.cfg s.cfg.markDec (p ++ [b] ++ q) → 3 ≤ p.length →
    ∃ t, pushWhole (p ++ [b ^^^ BitVec.twoPow 8 k] ++ q) s = .next t ∧
      t.displog = s.displog ++ [⟨.crcErr, p ++ [b ^^^ BitVec.twoPow 8 k] ++ q, false⟩] ∧ t.rxbuf = [] ∧
      t.wakeCnt = s.wakeCnt + 1

/-- 41_resync.md section 4, dead offsets: dropping a prefix of dead offsets changes no later event, latch or wake, whatever
is pushed afterwards, under either policy, as long as nothing overflows. -/
def Obligations.DeadPrefixDoesNotMatter : Prop :=
  ∀ (k : Nat) (chunks : List (List Byte)) (s u : State), s.phase = .run → k ≤ s.rxbuf.length →
    (∀ o, o < k → Dead s.cfg s.rxbuf o) →
    pushAll chunks s = .next u → u.flt.rxovf = false →
    ∃ v, pushAll chunks { s with rxbuf := s.rxbuf.drop k } = .next v ∧
      v.displog = u.displog ∧ v.lastf = u.lastf ∧ v.wakeCnt = u.wakeCnt ∧ ∃ j, v.rxbuf = u.rxbuf.drop j

/-- 41_resync.md section 4, the bound an implementation that trims would have: outside a pass, a buffer whose first offset
is not dead holds at most 254 bytes. -/
def Obligations.LiveHeadBoundsTheBuffer : Prop :=
  ∀ s : State, Inv s → s.pass = false → ¬ Dead s.cfg s.rxbuf 0 → s.rxbuf.length ≤ 254

/-! ### The wake signal, reset, the reserved select -/

/-- 60_exceptions.md section 2, `WAKE_ACQ` (decision D19 of the spec): it takes one wake if there is one, answers whether
it did, and never waits. -/
def Obligations.WakeAcqTakesAtMostOne : Prop :=
  ∀ s : State,
    (∀ n, s.wakeCnt = n + 1 →
      exec .wakeAcq s = .next { s with wakeCnt := n, results := s.results ++ [.bit true] }) ∧
    (s.wakeCnt = 0 → exec .wakeAcq s = .next { s with results := s.results ++ [.bit false] })

/-- 60_exceptions.md R207: `WAKE_DRAIN` sets the count to 0 and answers what it was. -/
def Obligations.WakeDrainEmptiesTheCount : Prop :=
  ∀ s : State, exec .wakeDrain s = .next { s with wakeCnt := 0, results := s.results ++ [.count s.wakeCnt] }

/-- 70_reset_and_hazards.md section 1 (decision D21 of the spec; what stays are the model's own fields, log entry 4):
from every state and in both phases `RST` leaves the block's own state as after reset; the build parameters and what
waits outside stay. -/
def Obligations.RstLeavesTheResetState : Prop :=
  ∀ s : State,
    exec .rst s = .next {
      cfg := s.cfg, rxbuf := [], dt := (State.resetOf s.cfg).dt, phase := .setup, lastf := none, wakeCnt := 0,
      flt := ⟨false⟩, txout := [], displog := [], pass := false,
      cmdPort := s.cmdPort, rxPort := s.rxPort, rstPin := s.rstPin, closeReq := s.closeReq,
      sched := s.sched, grants := s.grants, results := s.results ++ [.done] }

/-- 10_state.md section 8 (decisions D13, D14, D21 of the spec): the reset state of every build, entry by entry of the
table. -/
def Obligations.ResetStateIsAsTabled : Prop :=
  ∀ c : Config,
    (State.resetOf c).rxbuf = [] ∧ (State.resetOf c).phase = .setup ∧ (State.resetOf c).lastf = none ∧
    (State.resetOf c).wakeCnt = 0 ∧ (State.resetOf c).flt.rxovf = false ∧ (State.resetOf c).txout = [] ∧
    (State.resetOf c).displog = [] ∧ (State.resetOf c).cfg = c ∧
    dtRead (State.resetOf c) 0x00 = .ping ∧ dtRead (State.resetOf c) 0xFC = .bufOvf ∧
    dtRead (State.resetOf c) 0xFD = .crcErr ∧ dtRead (State.resetOf c) 0xFE = .text ∧
    (∀ x : Byte, x ≠ 0x00 → x ≠ 0xFC → x ≠ 0xFD → x ≠ 0xFE → dtRead (State.resetOf c) x = .wrong) ∧
    State.reset = State.resetOf Config.default

/-- 30_encoding.md section 5 (decision D23 of the spec): the sixteenth operation select is refused in every state. -/
def Obligations.ReservedSelectIsRefused : Prop :=
  ∀ s : State, exec .reservedF s = .refused .badOp

/-! ### The step -/

/-- 00_scope.md section 4: when the caller context alone is ready, the step runs the instruction that its oldest request
decodes to, on the state without that request. (The ports are log entry 3 of the model.) -/
def Obligations.StepRunsTheRequest : Prop :=
  ∀ (s : State) (r : Request) (rest : List Request),
    s.cmdPort = r :: rest → readyAgents s = [.caller] → r.opsel.toNat ∉ [0xC, 0xD, 0xE] →
    step s = exec (decodeRequest r) { s with cmdPort := rest } ∧
    decode s.cfg (.request r) = .instr (decodeRequest r)

/-- 00_scope.md section 4 and 41_resync.md section 3: when the I/O context alone is ready, the step runs one iteration of
the pass if one is open, and else takes the oldest chunk; and a request with the select of `RXPUSH`, `SCAN` or `DISPATCH`
on the command port is refused (log entry 9 of the model). -/
def Obligations.StepRunsTheIoContext : Prop :=
  ∀ s : State,
    (readyAgents s = [.io] → s.pass = true → step s = exec .scan s) ∧
    (∀ chunk rest, readyAgents s = [.io] → s.pass = false → s.rxPort = chunk :: rest →
      step s = exec (.rxpush chunk) { s with rxPort := rest }) ∧
    (∀ r rest, readyAgents s = [.caller] → s.cmdPort = r :: rest → r.opsel.toNat ∈ [0xC, 0xD, 0xE] →
      step s = .refused .wrongPort)

/-- 70_reset_and_hazards.md section 1, 60_exceptions.md section 5, 10_state.md section 8: the reset input does what `RST`
does; closing the channel releases one wake (log entry 17 of the model); with nobody ready the block waits unchanged. -/
def Obligations.StepServesTheOutsideLines : Prop :=
  ∀ s : State,
    (readyAgents s = [.resetInput] → step s = exec .rst { s with rstPin := false }) ∧
    (readyAgents s = [.channelClose] → step s = .next { s with closeReq := false, wakeCnt := s.wakeCnt + 1 }) ∧
    (readyAgents s = [] → step s = .next s)

/-- 20_memory.md section 6 and 60_exceptions.md section 3: steps of different contexts may interleave in any way. Whoever
else is ready, some schedule makes the next step the caller's request, unless the lock holds it back; the iteration of the
open pass; the append of the oldest chunk; the reset input's; the release at close. (The schedule is log entry 6 of the model;
that `REG`, `LOCK` and `ENCF` without `send` may fall inside a pass is log entry 7; the release at close is log entry 17.) -/
def Obligations.AnyReadyAgentMayMove : Prop :=
  ∀ s : State,
    (∀ r rest, s.cmdPort = r :: rest → r.opsel.toNat ∉ [0xC, 0xD, 0xE] →
      (s.pass = true → decodeRequest r ≠ .rst ∧ ¬ (r.opsel.toNat ∈ [0x2, 0x3] ∧ r.args.flag = true)) →
      ∃ q, step { s with sched := q } = exec (decodeRequest r) { s with sched := [], cmdPort := rest }) ∧
    (s.pass = true → ∃ q, step { s with sched := q } = exec .scan { s with sched := [] }) ∧
    (∀ chunk rest, s.pass = false → s.rxPort = chunk :: rest →
      ∃ q, step { s with sched := q } = exec (.rxpush chunk) { s with sched := [], rxPort := rest }) ∧
    (s.pass = false → s.rstPin = true →
      ∃ q, step { s with sched := q } = exec .rst { s with sched := [], rstPin := false }) ∧
    (s.pass = false → s.closeReq = true →
      ∃ q, step { s with sched := q } = .next { s with sched := [], closeReq := false, wakeCnt := s.wakeCnt + 1 })

/-- 20_memory.md section 6, the lock: in `RUN`, where alone a pass can be open (the invariant), a step inside a pass
transmits nothing, appends nothing, and changes neither the table, the phase nor the flags; bytes can leave the buffer at
its front only, and the outside lines and the rx port are not served. (That the reset input and the close wait for the end
of the pass is log entries 7 and 17 of the model.) -/
def Obligations.PassIsACriticalSection : Prop :=
  ∀ s t : State, s.phase = .run → s.pass = true → step s = .next t →
    t.txout = s.txout ∧ t.dt = s.dt ∧ t.phase = .run ∧ t.flt = s.flt ∧ (∃ n, t.rxbuf = s.rxbuf.drop n) ∧
    t.rxPort = s.rxPort ∧ t.rstPin = s.rstPin ∧ t.closeReq = s.closeReq

/-- The invariant of the model (Sys2Proof/Safety.lean; 10_state.md, 41_resync.md section 4, 42_dispatch.md section 2) is
kept by every step. -/
def Obligations.StepKeepsTheInvariant : Prop :=
  ∀ s t : State, Inv s → step s = .next t → Inv t

/-- The invariant holds of the reset state of every build. -/
def Obligations.ResetMeetsTheInvariant : Prop :=
  ∀ c : Config, Inv (State.resetOf c)

/-- 00_scope.md R6 and 70_reset_and_hazards.md section 1: no step changes a build parameter. -/
def Obligations.BuildParametersNeverChange : Prop :=
  ∀ s t : State, step s = .next t → t.cfg = s.cfg

/-- 20_memory.md section 7 and 10_state.md section 3: while the phase is `RUN` the table does not change; the only way back
to `SETUP` is a reset, by an `RST` request or the reset input, which restores the reset table and empties the buffer. -/
def Obligations.TableIsFixedWhileRunning : Prop :=
  ∀ s t : State, s.phase = .run → step s = .next t →
    (t.phase = .run ∧ t.dt = s.dt) ∨
    (ResetServed s t ∧
      t.phase = .setup ∧ t.dt = (State.resetOf s.cfg).dt ∧ t.rxbuf = [] ∧ t.lastf = none ∧ t.wakeCnt = 0)

/-- 10_state.md section 3 and 42_dispatch.md section 1 (the phase bit is decision D14 of the spec): the table is written by
`REG` in `SETUP`, at an application code, and by a reset, and by nothing else: if a step changes what a code reads as, the
code is an application code, and either the request served was a `REG` of it in `SETUP`, whose handler it now reads as, or
the step served an `RST` request or the reset input and the code reads as the default. -/
def Obligations.TableIsWrittenOnlyByRegistration : Prop :=
  ∀ (s t : State) (c : Byte), Inv s → step s = .next t → dtRead t c ≠ dtRead s c →
    1 ≤ c.toNat ∧ c.toNat ≤ 0xF9 ∧
    ((∃ r rest k, s.cmdPort = r :: rest ∧ t.cmdPort = rest ∧ decodeRequest r = .reg c k ∧ s.phase = .setup ∧
        k < s.cfg.nApp ∧ dtRead t c = .app k) ∨
     (ResetServed s t ∧ t.phase = .setup ∧ t.dt = (State.resetOf s.cfg).dt ∧ dtRead t c = .wrong))

/-- 10_state.md section 4 and 42_dispatch.md section 2: outside a reset, by an `RST` request or the reset input, every step
either dispatches nothing and leaves the latch, or is the iteration of a pass that dispatches the frame it found, which it
latches, logs and wakes for exactly once; and the count of wakes rises otherwise only by the release at close (log entry 17
of the model) and falls only by an acquire or a drain. -/
def Obligations.EveryDispatchWakesOnce : Prop :=
  ∀ s t : State, step s = .next t →
    (t.displog = s.displog ∧ t.lastf = s.lastf ∧
      (t.wakeCnt = s.wakeCnt ∨ (t.wakeCnt = s.wakeCnt + 1 ∧ s.closeReq = true ∧ t.closeReq = false) ∨
        ∃ r rest, s.cmdPort = r :: rest ∧ t.cmdPort = rest ∧
          ((decodeRequest r = .wakeAcq ∧ t.wakeCnt + 1 = s.wakeCnt) ∨ (decodeRequest r = .wakeDrain ∧ t.wakeCnt = 0)))) ∨
    (∃ o n d, s.pass = true ∧ find s.cfg s.rxbuf = .candidate o n ∧ d.frame = slice s.rxbuf o n ∧
      t.displog = s.displog ++ [d] ∧ t.lastf = some d ∧ t.wakeCnt = s.wakeCnt + 1) ∨
    (ResetServed s t ∧ t.displog = [] ∧ t.lastf = none ∧ t.wakeCnt = 0 ∧ t.phase = .setup)

/-- 10_state.md section 2 and 41_resync.md section 4: a step changes the receive buffer in one of three ways: the oldest
waiting chunk is taken and appended, the prefix of one dispatched candidate is removed inside a pass, or a reset, by an
`RST` request or the reset input, empties it. -/
def Obligations.BufferChangesInThreeWays : Prop :=
  ∀ s t : State, step s = .next t →
    t.rxbuf = s.rxbuf ∨
    (∃ chunk rest, s.pass = false ∧ s.phase = .run ∧ s.rxPort = chunk :: rest ∧ t.rxPort = rest ∧
      t.rxbuf = s.rxbuf ++ chunk ∧ t.pass = true) ∨
    (∃ o n d, s.pass = true ∧ find s.cfg s.rxbuf = .candidate o n ∧ t.rxbuf = s.rxbuf.drop (o + n) ∧
      t.displog = s.displog ++ [d] ∧ d.frame = slice s.rxbuf o n) ∨
    (ResetServed s t ∧ t.rxbuf = [] ∧ t.phase = .setup)

/-- 20_memory.md section 6, transmit order: outside a reset, by an `RST` request or the reset input, the frames handed over
only grow at the end, one valid frame of the send direction at a time, by an encode of the caller with `send` set, outside
a pass. -/
def Obligations.TransmissionsKeepIssueOrder : Prop :=
  ∀ s t : State, step s = .next t →
    t.txout = s.txout ∨
    (∃ f r rest, s.pass = false ∧ s.cmdPort = r :: rest ∧ t.cmdPort = rest ∧
      r.args.flag = true ∧ (r.opsel = 0x2 ∨ r.opsel = 0x3) ∧
      t.txout = s.txout ++ [f] ∧ t.results = s.results ++ [.frame f] ∧ ValidFrame s.cfg s.cfg.markEnc f) ∨
    (ResetServed s t ∧ t.txout = [] ∧ t.phase = .setup)

/-- 60_exceptions.md section 1 (decisions D14, D23 of the spec; the port check is log entry 9 of the model): a step is
refused only for a chunk offered in `SETUP` or for a request outside its domain, its ports or the fifteen operations. So
in every other state the step completes. -/
def Obligations.StepIsRefusedOnlyForCause : Prop :=
  ∀ (s : State) (e : Refusal), step s = .refused e →
    (e = .notRunning ∧ s.phase = .setup ∧ s.rxPort ≠ []) ∨
    ∃ r rest, s.cmdPort = r :: rest ∧
      ((e = .badOperand ∧ WellFormed s.cfg (decodeRequest r) = false) ∨
       (e = .badOp ∧ r.opsel = 0xF) ∨
       (e = .wrongPort ∧ (r.opsel = 0xC ∨ r.opsel = 0xD ∨ r.opsel = 0xE)))

/-! ### Decoding and encoding -/

/-- 30_encoding.md sections 1, 3 and 5: decoding the encoding of any well-formed instruction gives it back, with every
operand, in every build. (The lanes of a request are log entry 3 of the model.) -/
def Obligations.DecodeUndoesEncode : Prop :=
  ∀ (c : Config) (i : Instr), WellFormed c i = true → decode c (encode c i) = .instr i

/-- 30_encoding.md sections 1 to 3: a frame has one reading. The decoder accepts exactly the valid frames of the receive
direction, and what it reads from one encodes back to that frame and is well formed. -/
def Obligations.FrameDecoderAcceptsExactlyValidFrames : Prop :=
  ∀ (c : Config) (f : List Byte),
    ((∃ i, decodeFrame c f = .instr i) ↔ ValidFrame c c.markDec f) ∧
    (∀ i, decodeFrame c f = .instr i → encode c i = .frame f ∧ WellFormed c i = true)

/-- 95_test_vectors.md section 2, 30_encoding.md sections 3 and 5: a frame of the spec's vectors for each of the eight
classes, one more for the build with the address byte, and a request for each group of operations decode to the instruction
they stand for; the vector with a failing checksum is rejected for it. The frames are the spec's bytes; of a request the spec
gives the operation select only, and that its operands stand in the lanes shown is log entry 3 of the model (DESIGN
CHOICE). -/
def Obligations.SpecWordsDecode : Prop :=
  decode Config.default (.frame [0xAA, 0x55, 0x05, 0x00, 0x54]) = .instr (.ping 0 []) ∧
  decode Config.default (.frame [0xAA, 0x55, 0x08, 0x10, 0x01, 0x02, 0x03, 0xC3]) = .instr (.app 0 0x10 [1, 2, 3]) ∧
  decode Config.default (.frame [0xAA, 0x55, 0x05, 0xFA, 0xF9]) = .instr (.rsvdFa 0 []) ∧
  decode Config.default (.frame [0xAA, 0x55, 0x05, 0xFB, 0xE4]) = .instr (.rsvdFb 0 []) ∧
  decode Config.default (.frame [0xAA, 0x55, 0x05, 0xFC, 0xB7]) = .instr (.bufOvf 0 []) ∧
  decode Config.default (.frame [0xAA, 0x55, 0x05, 0xFD, 0xAA]) = .instr (.crcErr 0 []) ∧
  decode Config.default (.frame [0xAA, 0x55, 0x07, 0xFE, 0x48, 0x69, 0x04]) = .instr (.text 0 [0x48, 0x69]) ∧
  decode Config.default (.frame [0xAA, 0x55, 0x05, 0xFF, 0x90]) = .instr (.wrong 0 []) ∧
  decode Config.default (.frame [0xAA, 0x55, 0x05, 0x77, 0x5F]) = .reject .badChecksum ∧
  decode { Config.default with hasAddr := true } (.frame [0xAA, 0x55, 0x07, 0x05, 0x30, 0xAB, 0x72]) =
    .instr (.app 5 0x30 [0xAB]) ∧
  decode Config.default (.request ⟨0x0, { Operands.none with bytes := [1] }⟩) = .instr (.cksum [1]) ∧
  decode Config.default (.request ⟨0x3, ⟨[], 0x21, 5, [⟨2, 0x1234⟩], 0, false⟩⟩) =
    .instr (.encf 0x21 5 [⟨2, 0x1234⟩] false) ∧
  decode Config.default (.request ⟨0x6, { Operands.none with code := 0x10, num := 2 }⟩) = .instr (.reg 0x10 2) ∧
  decode Config.default (.request ⟨0x8, Operands.none⟩) = .instr .lastfRd ∧
  decode Config.default (.request ⟨0xA, Operands.none⟩) = .instr .wakeDrain ∧
  decode Config.default (.request ⟨0xB, Operands.none⟩) = .instr .rst ∧
  decode Config.default (.request ⟨0xC, { Operands.none with bytes := [1, 2] }⟩) = .instr (.rxpush [1, 2]) ∧
  decode Config.default (.request ⟨0xF, Operands.none⟩) = .instr .reservedF

/-! ### Runs of steps -/

/-- 41_resync.md sections 1, 3 and 4: with nothing waiting but chunks, so that the I/O context alone is ready, the steps of an
open pass, at most as many as it can have iterations, leave what the whole pass leaves; the steps from the append of the
oldest chunk to the end of its pass leave what the whole push leaves, or stop as it stops; and the steps over all waiting
chunks leave what the pushes one after another leave. (That a push is several steps is log entry 5 of the model.) -/
def Obligations.StepsOfAPushAreThePush : Prop :=
  ∀ s : State, s.cmdPort = [] → s.rstPin = false → s.closeReq = false →
    (s.pass = true → ∀ n, n = s.rxbuf.length / s.cfg.minLen + 1 →
      ∃ k, k ≤ n ∧ steps k s = .next (runPass n s)) ∧
    (s.pass = false → ∀ chunk rest, s.rxPort = chunk :: rest →
      ∃ k, 1 ≤ k ∧ k ≤ (s.rxbuf.length + chunk.length) / s.cfg.minLen + 2 ∧
        steps k s = pushWhole chunk { s with rxPort := rest }) ∧
    (s.pass = false → ∃ k, steps k s = pushAll s.rxPort { s with rxPort := [] })
end

