-- ==== Sys2Proof/Laws/Codec.lean ====
section
/-! SUPPORT. The small lemmas of the frame and field definitions: lengths, where the fields of a built frame stand, what
the serializer and the reader do. -/

namespace Sys2Proof

/-! ### Bounds -/

theorem Config.hdr_cases (c : Config) : (c.hasAddr = false ∧ c.hdr = 4) ∨ (c.hasAddr = true ∧ c.hdr = 5) := by
  unfold Config.hdr; cases c.hasAddr <;> simp

theorem Config.minLen_eq (c : Config) : c.minLen = c.hdr + 1 := rfl

theorem Config.five_le_minLen (c : Config) : 5 ≤ c.minLen := by
  have := c.hdr_cases; have := c.minLen_eq; omega

theorem Config.maxPayload_eq (c : Config) : c.maxPayload = 254 - c.hdr := by
  unfold Config.maxPayload Config.maxLen; omega

/-! ### Checksum -/

theorem crc8_append (s t : List Byte) : crc8 (s ++ t) = t.foldl crcByte (crc8 s) := by simp [crc8, crcXorOut]

theorem xor8_append (s t : List Byte) : xor8 (s ++ t) = t.foldl (fun c b => c ^^^ b) (xor8 s) := by simp [xor8]

theorem verifies_append (c : Config) (g : List Byte) (b : Byte) : verifies c (g ++ [b]) = (b == ck c g) := by
  simp [verifies]

theorem verifies_iff (c : Config) (f : List Byte) :
    verifies c f = true ↔ f.getLast? = some (ck c f.dropLast) := by
  unfold verifies; split <;> simp_all

/-! ### The built frame -/

theorem frameBody_length (c : Config) (m : Byte × Byte) (a cmd : Byte) (p : List Byte) :
    (frameBody c m a cmd p).length = c.hdr + p.length := by
  unfold frameBody Config.hdr; split <;> simp <;> omega

theorem buildFrame_length (c : Config) (m : Byte × Byte) (a cmd : Byte) (p : List Byte) :
    (buildFrame c m a cmd p).length = c.hdr + p.length + 1 := by
  simp [buildFrame, frameBody_length]

theorem verifies_buildFrame (c : Config) (m : Byte × Byte) (a cmd : Byte) (p : List Byte) :
    verifies c (buildFrame c m a cmd p) = true := by
  simp [buildFrame, verifies_append]

theorem frameCommand_buildFrame (c : Config) (m : Byte × Byte) (a cmd : Byte) (p : List Byte) :
    frameCommand c (buildFrame c m a cmd p) = cmd := by
  unfold frameCommand buildFrame frameBody Config.hdr; split <;> simp_all

theorem framePayload_buildFrame (c : Config) (m : Byte × Byte) (a cmd : Byte) (p : List Byte) :
    framePayload c (buildFrame c m a cmd p) = p := by
  unfold framePayload buildFrame frameBody Config.hdr; split <;> simp_all

theorem framed_buildFrame (c : Config) (m : Byte × Byte) (a cmd : Byte) (p : List Byte)
    (h : p.length ≤ c.maxPayload) : Machine.Framed c m (buildFrame c m a cmd p) := by
  have hl := buildFrame_length c m a cmd p
  have hd := c.hdr_cases
  rw [c.maxPayload_eq] at h
  refine ⟨by rw [c.minLen_eq]; omega, by simp [buildFrame, frameBody], by simp [buildFrame, frameBody], ?_⟩
  rw [hl]; simp [buildFrame, frameBody, u8]; omega

theorem framePayload_length (c : Config) (f : List Byte) : (framePayload c f).length = f.length - c.hdr - 1 := by
  simp [framePayload]

/-! ### Typed fields -/

theorem leBytes_length (n v : Nat) : (leBytes n v).length = n := by
  induction n generalizing v with
  | zero => rfl
  | succ n ih => simp [leBytes, ih]

theorem leValue_leBytes (n v : Nat) (h : v < 256 ^ n) : leValue (leBytes n v) = v := by
  induction n generalizing v with
  | zero => simp at h; simp [leBytes, leValue, h]
  | succ n ih =>
    have hq : v / 256 < 256 ^ n := by
      rw [Nat.div_lt_iff_lt_mul (by norm_num)]; rwa [pow_succ] at h
    rw [leBytes, leValue, ih _ hq]; simp [u8]; omega

theorem fieldBytes_length (o : ByteOrder) (f : Field) : (fieldBytes o f).length = f.width := by
  cases o <;> simp [fieldBytes, leBytes_length]

theorem fieldsBytes_length (o : ByteOrder) (fs : List Field) :
    (fieldsBytes o fs).length = (fs.map Field.width).sum := by
  simp [fieldsBytes, List.length_flatMap, fieldBytes_length]

theorem decodeInRange_iff (c : Config) (f : List Byte) (n : Nat) :
    decodeInRange c f n = true ↔ c.minLen ≤ f.length ∧ n + c.hdr + 1 ≤ f.length := by
  simp [decodeInRange, framePayload_length, c.minLen_eq]
  omega

end Sys2Proof
end

