-- ==== Sys2Proof/Laws/State.lean ====
section
/-! SUPPORT. One lemma per field per operation of Machine/Ops.lean: what the operation writes and that it writes nothing
else. Later proofs never unfold a record update. -/

namespace Sys2Proof.Machine

/-! ### giveResult -/

@[simp] theorem giveResult_cfg (r : Result) (s : State) : (giveResult r s).cfg = s.cfg := rfl
@[simp] theorem giveResult_rxbuf (r : Result) (s : State) : (giveResult r s).rxbuf = s.rxbuf := rfl
@[simp] theorem giveResult_dt (r : Result) (s : State) : (giveResult r s).dt = s.dt := rfl
@[simp] theorem giveResult_phase (r : Result) (s : State) : (giveResult r s).phase = s.phase := rfl
@[simp] theorem giveResult_lastf (r : Result) (s : State) : (giveResult r s).lastf = s.lastf := rfl
@[simp] theorem giveResult_wakeCnt (r : Result) (s : State) : (giveResult r s).wakeCnt = s.wakeCnt := rfl
@[simp] theorem giveResult_flt (r : Result) (s : State) : (giveResult r s).flt = s.flt := rfl
@[simp] theorem giveResult_txout (r : Result) (s : State) : (giveResult r s).txout = s.txout := rfl
@[simp] theorem giveResult_displog (r : Result) (s : State) : (giveResult r s).displog = s.displog := rfl
@[simp] theorem giveResult_pass (r : Result) (s : State) : (giveResult r s).pass = s.pass := rfl
@[simp] theorem giveResult_cmdPort (r : Result) (s : State) : (giveResult r s).cmdPort = s.cmdPort := rfl
@[simp] theorem giveResult_rxPort (r : Result) (s : State) : (giveResult r s).rxPort = s.rxPort := rfl
@[simp] theorem giveResult_rstPin (r : Result) (s : State) : (giveResult r s).rstPin = s.rstPin := rfl
@[simp] theorem giveResult_closeReq (r : Result) (s : State) : (giveResult r s).closeReq = s.closeReq := rfl
@[simp] theorem giveResult_sched (r : Result) (s : State) : (giveResult r s).sched = s.sched := rfl
@[simp] theorem giveResult_grants (r : Result) (s : State) : (giveResult r s).grants = s.grants := rfl
@[simp] theorem giveResult_results (r : Result) (s : State) : (giveResult r s).results = s.results ++ [r] := rfl

/-! ### raise -/

@[simp] theorem raise_cfg (e : Exc) (s : State) : (raise e s).cfg = s.cfg := rfl
@[simp] theorem raise_rxbuf (e : Exc) (s : State) : (raise e s).rxbuf = s.rxbuf := rfl
@[simp] theorem raise_dt (e : Exc) (s : State) : (raise e s).dt = s.dt := rfl
@[simp] theorem raise_phase (e : Exc) (s : State) : (raise e s).phase = s.phase := rfl
@[simp] theorem raise_lastf (e : Exc) (s : State) : (raise e s).lastf = s.lastf := rfl
@[simp] theorem raise_wakeCnt (e : Exc) (s : State) : (raise e s).wakeCnt = s.wakeCnt := rfl
@[simp] theorem raise_flt (e : Exc) (s : State) : (raise e s).flt = s.flt := rfl
@[simp] theorem raise_txout (e : Exc) (s : State) : (raise e s).txout = s.txout := rfl
@[simp] theorem raise_displog (e : Exc) (s : State) : (raise e s).displog = s.displog := rfl
@[simp] theorem raise_pass (e : Exc) (s : State) : (raise e s).pass = s.pass := rfl
@[simp] theorem raise_cmdPort (e : Exc) (s : State) : (raise e s).cmdPort = s.cmdPort := rfl
@[simp] theorem raise_rxPort (e : Exc) (s : State) : (raise e s).rxPort = s.rxPort := rfl
@[simp] theorem raise_rstPin (e : Exc) (s : State) : (raise e s).rstPin = s.rstPin := rfl
@[simp] theorem raise_closeReq (e : Exc) (s : State) : (raise e s).closeReq = s.closeReq := rfl
@[simp] theorem raise_sched (e : Exc) (s : State) : (raise e s).sched = s.sched := rfl
@[simp] theorem raise_grants (e : Exc) (s : State) : (raise e s).grants = s.grants := rfl
@[simp] theorem raise_results (e : Exc) (s : State) : (raise e s).results = s.results ++ [.raised e] := rfl

/-! ### dtWrite -/

@[simp] theorem dtWrite_cfg (c : Byte) (h : HandlerId) (s : State) : (dtWrite c h s).cfg = s.cfg := rfl
@[simp] theorem dtWrite_rxbuf (c : Byte) (h : HandlerId) (s : State) : (dtWrite c h s).rxbuf = s.rxbuf := rfl
@[simp] theorem dtWrite_dt (c : Byte) (h : HandlerId) (s : State) : (dtWrite c h s).dt = s.dt.set c.toNat h c.isLt := rfl
@[simp] theorem dtWrite_phase (c : Byte) (h : HandlerId) (s : State) : (dtWrite c h s).phase = s.phase := rfl
@[simp] theorem dtWrite_lastf (c : Byte) (h : HandlerId) (s : State) : (dtWrite c h s).lastf = s.lastf := rfl
@[simp] theorem dtWrite_wakeCnt (c : Byte) (h : HandlerId) (s : State) : (dtWrite c h s).wakeCnt = s.wakeCnt := rfl
@[simp] theorem dtWrite_flt (c : Byte) (h : HandlerId) (s : State) : (dtWrite c h s).flt = s.flt := rfl
@[simp] theorem dtWrite_txout (c : Byte) (h : HandlerId) (s : State) : (dtWrite c h s).txout = s.txout := rfl
@[simp] theorem dtWrite_displog (c : Byte) (h : HandlerId) (s : State) : (dtWrite c h s).displog = s.displog := rfl
@[simp] theorem dtWrite_pass (c : Byte) (h : HandlerId) (s : State) : (dtWrite c h s).pass = s.pass := rfl
@[simp] theorem dtWrite_cmdPort (c : Byte) (h : HandlerId) (s : State) : (dtWrite c h s).cmdPort = s.cmdPort := rfl
@[simp] theorem dtWrite_rxPort (c : Byte) (h : HandlerId) (s : State) : (dtWrite c h s).rxPort = s.rxPort := rfl
@[simp] theorem dtWrite_rstPin (c : Byte) (h : HandlerId) (s : State) : (dtWrite c h s).rstPin = s.rstPin := rfl
@[simp] theorem dtWrite_closeReq (c : Byte) (h : HandlerId) (s : State) : (dtWrite c h s).closeReq = s.closeReq := rfl
@[simp] theorem dtWrite_sched (c : Byte) (h : HandlerId) (s : State) : (dtWrite c h s).sched = s.sched := rfl
@[simp] theorem dtWrite_grants (c : Byte) (h : HandlerId) (s : State) : (dtWrite c h s).grants = s.grants := rfl
@[simp] theorem dtWrite_results (c : Byte) (h : HandlerId) (s : State) : (dtWrite c h s).results = s.results := rfl

/-! ### wakeRelease -/

@[simp] theorem wakeRelease_cfg (s : State) : (wakeRelease s).cfg = s.cfg := rfl
@[simp] theorem wakeRelease_rxbuf (s : State) : (wakeRelease s).rxbuf = s.rxbuf := rfl
@[simp] theorem wakeRelease_dt (s : State) : (wakeRelease s).dt = s.dt := rfl
@[simp] theorem wakeRelease_phase (s : State) : (wakeRelease s).phase = s.phase := rfl
@[simp] theorem wakeRelease_lastf (s : State) : (wakeRelease s).lastf = s.lastf := rfl
@[simp] theorem wakeRelease_wakeCnt (s : State) : (wakeRelease s).wakeCnt = s.wakeCnt + 1 := rfl
@[simp] theorem wakeRelease_flt (s : State) : (wakeRelease s).flt = s.flt := rfl
@[simp] theorem wakeRelease_txout (s : State) : (wakeRelease s).txout = s.txout := rfl
@[simp] theorem wakeRelease_displog (s : State) : (wakeRelease s).displog = s.displog := rfl
@[simp] theorem wakeRelease_pass (s : State) : (wakeRelease s).pass = s.pass := rfl
@[simp] theorem wakeRelease_cmdPort (s : State) : (wakeRelease s).cmdPort = s.cmdPort := rfl
@[simp] theorem wakeRelease_rxPort (s : State) : (wakeRelease s).rxPort = s.rxPort := rfl
@[simp] theorem wakeRelease_rstPin (s : State) : (wakeRelease s).rstPin = s.rstPin := rfl
@[simp] theorem wakeRelease_closeReq (s : State) : (wakeRelease s).closeReq = s.closeReq := rfl
@[simp] theorem wakeRelease_sched (s : State) : (wakeRelease s).sched = s.sched := rfl
@[simp] theorem wakeRelease_grants (s : State) : (wakeRelease s).grants = s.grants := rfl
@[simp] theorem wakeRelease_results (s : State) : (wakeRelease s).results = s.results := rfl

/-! ### takeDispatch -/

@[simp] theorem takeDispatch_cfg (f : List Byte) (ok : Bool) (s : State) : (takeDispatch f ok s).cfg = s.cfg := rfl
@[simp] theorem takeDispatch_rxbuf (f : List Byte) (ok : Bool) (s : State) : (takeDispatch f ok s).rxbuf = s.rxbuf := rfl
@[simp] theorem takeDispatch_dt (f : List Byte) (ok : Bool) (s : State) : (takeDispatch f ok s).dt = s.dt := rfl
@[simp] theorem takeDispatch_phase (f : List Byte) (ok : Bool) (s : State) : (takeDispatch f ok s).phase = s.phase := rfl
@[simp] theorem takeDispatch_lastf (f : List Byte) (ok : Bool) (s : State) : (takeDispatch f ok s).lastf = some ⟨selectHandler s f ok, f, ok⟩ := rfl
@[simp] theorem takeDispatch_wakeCnt (f : List Byte) (ok : Bool) (s : State) : (takeDispatch f ok s).wakeCnt = s.wakeCnt + 1 := rfl
@[simp] theorem takeDispatch_flt (f : List Byte) (ok : Bool) (s : State) : (takeDispatch f ok s).flt = s.flt := rfl
@[simp] theorem takeDispatch_txout (f : List Byte) (ok : Bool) (s : State) : (takeDispatch f ok s).txout = s.txout := rfl
@[simp] theorem takeDispatch_displog (f : List Byte) (ok : Bool) (s : State) : (takeDispatch f ok s).displog = s.displog ++ [⟨selectHandler s f ok, f, ok⟩] := rfl
@[simp] theorem takeDispatch_pass (f : List Byte) (ok : Bool) (s : State) : (takeDispatch f ok s).pass = s.pass := rfl
@[simp] theorem takeDispatch_cmdPort (f : List Byte) (ok : Bool) (s : State) : (takeDispatch f ok s).cmdPort = s.cmdPort := rfl
@[simp] theorem takeDispatch_rxPort (f : List Byte) (ok : Bool) (s : State) : (takeDispatch f ok s).rxPort = s.rxPort := rfl
@[simp] theorem takeDispatch_rstPin (f : List Byte) (ok : Bool) (s : State) : (takeDispatch f ok s).rstPin = s.rstPin := rfl
@[simp] theorem takeDispatch_closeReq (f : List Byte) (ok : Bool) (s : State) : (takeDispatch f ok s).closeReq = s.closeReq := rfl
@[simp] theorem takeDispatch_sched (f : List Byte) (ok : Bool) (s : State) : (takeDispatch f ok s).sched = s.sched := rfl
@[simp] theorem takeDispatch_grants (f : List Byte) (ok : Bool) (s : State) : (takeDispatch f ok s).grants = s.grants := rfl
@[simp] theorem takeDispatch_results (f : List Byte) (ok : Bool) (s : State) : (takeDispatch f ok s).results = s.results := rfl

/-! ### dropPrefix -/

@[simp] theorem dropPrefix_cfg (n : Nat) (s : State) : (dropPrefix n s).cfg = s.cfg := rfl
@[simp] theorem dropPrefix_rxbuf (n : Nat) (s : State) : (dropPrefix n s).rxbuf = s.rxbuf.drop n := rfl
@[simp] theorem dropPrefix_dt (n : Nat) (s : State) : (dropPrefix n s).dt = s.dt := rfl
@[simp] theorem dropPrefix_phase (n : Nat) (s : State) : (dropPrefix n s).phase = s.phase := rfl
@[simp] theorem dropPrefix_lastf (n : Nat) (s : State) : (dropPrefix n s).lastf = s.lastf := rfl
@[simp] theorem dropPrefix_wakeCnt (n : Nat) (s : State) : (dropPrefix n s).wakeCnt = s.wakeCnt := rfl
@[simp] theorem dropPrefix_flt (n : Nat) (s : State) : (dropPrefix n s).flt = s.flt := rfl
@[simp] theorem dropPrefix_txout (n : Nat) (s : State) : (dropPrefix n s).txout = s.txout := rfl
@[simp] theorem dropPrefix_displog (n : Nat) (s : State) : (dropPrefix n s).displog = s.displog := rfl
@[simp] theorem dropPrefix_pass (n : Nat) (s : State) : (dropPrefix n s).pass = s.pass := rfl
@[simp] theorem dropPrefix_cmdPort (n : Nat) (s : State) : (dropPrefix n s).cmdPort = s.cmdPort := rfl
@[simp] theorem dropPrefix_rxPort (n : Nat) (s : State) : (dropPrefix n s).rxPort = s.rxPort := rfl
@[simp] theorem dropPrefix_rstPin (n : Nat) (s : State) : (dropPrefix n s).rstPin = s.rstPin := rfl
@[simp] theorem dropPrefix_closeReq (n : Nat) (s : State) : (dropPrefix n s).closeReq = s.closeReq := rfl
@[simp] theorem dropPrefix_sched (n : Nat) (s : State) : (dropPrefix n s).sched = s.sched := rfl
@[simp] theorem dropPrefix_grants (n : Nat) (s : State) : (dropPrefix n s).grants = s.grants := rfl
@[simp] theorem dropPrefix_results (n : Nat) (s : State) : (dropPrefix n s).results = s.results := rfl

/-! ### appendChunk -/

@[simp] theorem appendChunk_cfg (chunk : List Byte) (s : State) : (appendChunk chunk s).cfg = s.cfg := rfl
@[simp] theorem appendChunk_rxbuf (chunk : List Byte) (s : State) : (appendChunk chunk s).rxbuf = s.rxbuf ++ chunk := rfl
@[simp] theorem appendChunk_dt (chunk : List Byte) (s : State) : (appendChunk chunk s).dt = s.dt := rfl
@[simp] theorem appendChunk_phase (chunk : List Byte) (s : State) : (appendChunk chunk s).phase = s.phase := rfl
@[simp] theorem appendChunk_lastf (chunk : List Byte) (s : State) : (appendChunk chunk s).lastf = s.lastf := rfl
@[simp] theorem appendChunk_wakeCnt (chunk : List Byte) (s : State) : (appendChunk chunk s).wakeCnt = s.wakeCnt := rfl
@[simp] theorem appendChunk_flt (chunk : List Byte) (s : State) : (appendChunk chunk s).flt = s.flt := rfl
@[simp] theorem appendChunk_txout (chunk : List Byte) (s : State) : (appendChunk chunk s).txout = s.txout := rfl
@[simp] theorem appendChunk_displog (chunk : List Byte) (s : State) : (appendChunk chunk s).displog = s.displog := rfl
@[simp] theorem appendChunk_pass (chunk : List Byte) (s : State) : (appendChunk chunk s).pass = true := rfl
@[simp] theorem appendChunk_cmdPort (chunk : List Byte) (s : State) : (appendChunk chunk s).cmdPort = s.cmdPort := rfl
@[simp] theorem appendChunk_rxPort (chunk : List Byte) (s : State) : (appendChunk chunk s).rxPort = s.rxPort := rfl
@[simp] theorem appendChunk_rstPin (chunk : List Byte) (s : State) : (appendChunk chunk s).rstPin = s.rstPin := rfl
@[simp] theorem appendChunk_closeReq (chunk : List Byte) (s : State) : (appendChunk chunk s).closeReq = s.closeReq := rfl
@[simp] theorem appendChunk_sched (chunk : List Byte) (s : State) : (appendChunk chunk s).sched = s.sched := rfl
@[simp] theorem appendChunk_grants (chunk : List Byte) (s : State) : (appendChunk chunk s).grants = s.grants := rfl
@[simp] theorem appendChunk_results (chunk : List Byte) (s : State) : (appendChunk chunk s).results = s.results := rfl

/-! ### rxOverflow -/

@[simp] theorem rxOverflow_cfg (s : State) : (rxOverflow s).cfg = s.cfg := rfl
@[simp] theorem rxOverflow_rxbuf (s : State) : (rxOverflow s).rxbuf = s.rxbuf := rfl
@[simp] theorem rxOverflow_dt (s : State) : (rxOverflow s).dt = s.dt := rfl
@[simp] theorem rxOverflow_phase (s : State) : (rxOverflow s).phase = s.phase := rfl
@[simp] theorem rxOverflow_lastf (s : State) : (rxOverflow s).lastf = s.lastf := rfl
@[simp] theorem rxOverflow_wakeCnt (s : State) : (rxOverflow s).wakeCnt = s.wakeCnt := rfl
@[simp] theorem rxOverflow_flt (s : State) : (rxOverflow s).flt = ⟨true⟩ := rfl
@[simp] theorem rxOverflow_txout (s : State) : (rxOverflow s).txout = s.txout := rfl
@[simp] theorem rxOverflow_displog (s : State) : (rxOverflow s).displog = s.displog := rfl
@[simp] theorem rxOverflow_pass (s : State) : (rxOverflow s).pass = s.pass := rfl
@[simp] theorem rxOverflow_cmdPort (s : State) : (rxOverflow s).cmdPort = s.cmdPort := rfl
@[simp] theorem rxOverflow_rxPort (s : State) : (rxOverflow s).rxPort = s.rxPort := rfl
@[simp] theorem rxOverflow_rstPin (s : State) : (rxOverflow s).rstPin = s.rstPin := rfl
@[simp] theorem rxOverflow_closeReq (s : State) : (rxOverflow s).closeReq = s.closeReq := rfl
@[simp] theorem rxOverflow_sched (s : State) : (rxOverflow s).sched = s.sched := rfl
@[simp] theorem rxOverflow_grants (s : State) : (rxOverflow s).grants = s.grants := rfl
@[simp] theorem rxOverflow_results (s : State) : (rxOverflow s).results = s.results ++ [.raised .rxOverflow] := rfl

/-! ### endPass -/

@[simp] theorem endPass_cfg (s : State) : (endPass s).cfg = s.cfg := rfl
@[simp] theorem endPass_rxbuf (s : State) : (endPass s).rxbuf = s.rxbuf := rfl
@[simp] theorem endPass_dt (s : State) : (endPass s).dt = s.dt := rfl
@[simp] theorem endPass_phase (s : State) : (endPass s).phase = s.phase := rfl
@[simp] theorem endPass_lastf (s : State) : (endPass s).lastf = s.lastf := rfl
@[simp] theorem endPass_wakeCnt (s : State) : (endPass s).wakeCnt = s.wakeCnt := rfl
@[simp] theorem endPass_flt (s : State) : (endPass s).flt = s.flt := rfl
@[simp] theorem endPass_txout (s : State) : (endPass s).txout = s.txout := rfl
@[simp] theorem endPass_displog (s : State) : (endPass s).displog = s.displog := rfl
@[simp] theorem endPass_pass (s : State) : (endPass s).pass = false := rfl
@[simp] theorem endPass_cmdPort (s : State) : (endPass s).cmdPort = s.cmdPort := rfl
@[simp] theorem endPass_rxPort (s : State) : (endPass s).rxPort = s.rxPort := rfl
@[simp] theorem endPass_rstPin (s : State) : (endPass s).rstPin = s.rstPin := rfl
@[simp] theorem endPass_closeReq (s : State) : (endPass s).closeReq = s.closeReq := rfl
@[simp] theorem endPass_sched (s : State) : (endPass s).sched = s.sched := rfl
@[simp] theorem endPass_grants (s : State) : (endPass s).grants = s.grants := rfl
@[simp] theorem endPass_results (s : State) : (endPass s).results = s.results := rfl

/-! ### emitTx -/

@[simp] theorem emitTx_cfg (send : Bool) (f : List Byte) (s : State) : (emitTx send f s).cfg = s.cfg := by
  cases send <;> rfl
@[simp] theorem emitTx_rxbuf (send : Bool) (f : List Byte) (s : State) : (emitTx send f s).rxbuf = s.rxbuf := by
  cases send <;> rfl
@[simp] theorem emitTx_dt (send : Bool) (f : List Byte) (s : State) : (emitTx send f s).dt = s.dt := by
  cases send <;> rfl
@[simp] theorem emitTx_phase (send : Bool) (f : List Byte) (s : State) : (emitTx send f s).phase = s.phase := by
  cases send <;> rfl
@[simp] theorem emitTx_lastf (send : Bool) (f : List Byte) (s : State) : (emitTx send f s).lastf = s.lastf := by
  cases send <;> rfl
@[simp] theorem emitTx_wakeCnt (send : Bool) (f : List Byte) (s : State) : (emitTx send f s).wakeCnt = s.wakeCnt := by
  cases send <;> rfl
@[simp] theorem emitTx_flt (send : Bool) (f : List Byte) (s : State) : (emitTx send f s).flt = s.flt := by
  cases send <;> rfl
@[simp] theorem emitTx_txout (send : Bool) (f : List Byte) (s : State) :
    (emitTx send f s).txout = if send then s.txout ++ [f] else s.txout := by
  cases send <;> rfl
@[simp] theorem emitTx_displog (send : Bool) (f : List Byte) (s : State) : (emitTx send f s).displog = s.displog := by
  cases send <;> rfl
@[simp] theorem emitTx_pass (send : Bool) (f : List Byte) (s : State) : (emitTx send f s).pass = s.pass := by
  cases send <;> rfl
@[simp] theorem emitTx_cmdPort (send : Bool) (f : List Byte) (s : State) : (emitTx send f s).cmdPort = s.cmdPort := by
  cases send <;> rfl
@[simp] theorem emitTx_rxPort (send : Bool) (f : List Byte) (s : State) : (emitTx send f s).rxPort = s.rxPort := by
  cases send <;> rfl
@[simp] theorem emitTx_rstPin (send : Bool) (f : List Byte) (s : State) : (emitTx send f s).rstPin = s.rstPin := by
  cases send <;> rfl
@[simp] theorem emitTx_closeReq (send : Bool) (f : List Byte) (s : State) : (emitTx send f s).closeReq = s.closeReq := by
  cases send <;> rfl
@[simp] theorem emitTx_sched (send : Bool) (f : List Byte) (s : State) : (emitTx send f s).sched = s.sched := by
  cases send <;> rfl
@[simp] theorem emitTx_grants (send : Bool) (f : List Byte) (s : State) : (emitTx send f s).grants = s.grants := by
  cases send <;> rfl
@[simp] theorem emitTx_results (send : Bool) (f : List Byte) (s : State) : (emitTx send f s).results = s.results := by
  cases send <;> rfl

/-! ### resetBlock: the block's own fields as after reset, the outside's as before -/

@[simp] theorem resetBlock_cfg (s : State) : (resetBlock s).cfg = s.cfg := rfl
@[simp] theorem resetBlock_rxbuf (s : State) : (resetBlock s).rxbuf = [] := rfl
@[simp] theorem resetBlock_dt (s : State) : (resetBlock s).dt = dtReset := rfl
@[simp] theorem resetBlock_phase (s : State) : (resetBlock s).phase = .setup := rfl
@[simp] theorem resetBlock_lastf (s : State) : (resetBlock s).lastf = none := rfl
@[simp] theorem resetBlock_wakeCnt (s : State) : (resetBlock s).wakeCnt = 0 := rfl
@[simp] theorem resetBlock_flt (s : State) : (resetBlock s).flt = ⟨false⟩ := rfl
@[simp] theorem resetBlock_txout (s : State) : (resetBlock s).txout = [] := rfl
@[simp] theorem resetBlock_displog (s : State) : (resetBlock s).displog = [] := rfl
@[simp] theorem resetBlock_pass (s : State) : (resetBlock s).pass = false := rfl
@[simp] theorem resetBlock_cmdPort (s : State) : (resetBlock s).cmdPort = s.cmdPort := rfl
@[simp] theorem resetBlock_rxPort (s : State) : (resetBlock s).rxPort = s.rxPort := rfl
@[simp] theorem resetBlock_rstPin (s : State) : (resetBlock s).rstPin = s.rstPin := rfl
@[simp] theorem resetBlock_closeReq (s : State) : (resetBlock s).closeReq = s.closeReq := rfl
@[simp] theorem resetBlock_sched (s : State) : (resetBlock s).sched = s.sched := rfl
@[simp] theorem resetBlock_grants (s : State) : (resetBlock s).grants = s.grants := rfl
@[simp] theorem resetBlock_results (s : State) : (resetBlock s).results = s.results := rfl

end Sys2Proof.Machine
end

