-- ==== Sys2Proof/Laws/Memory.lean ====
section
/-! SUPPORT. Every operation that writes the receive buffer keeps its form (Memory.wf); the other operations do not touch
it (Laws/State.lean). -/

namespace Sys2Proof.Machine

theorem roomFor_iff (s : State) (chunk : List Byte) :
    roomFor s chunk = true ↔ ∀ cap, s.cfg.rxbufCap = some cap → s.rxbuf.length + chunk.length ≤ cap := by
  unfold roomFor; cases s.cfg.rxbufCap <;> simp

theorem Memory.wf_iff (cap : Option Nat) (m : Memory) :
    Memory.wf cap m = true ↔ ∀ n, cap = some n → m.length ≤ n := by
  unfold Memory.wf; cases cap <;> simp

theorem appendChunk_wf (chunk : List Byte) (s : State) (h : roomFor s chunk = true) :
    Memory.wf (appendChunk chunk s).cfg.rxbufCap (appendChunk chunk s).rxbuf = true := by
  rw [roomFor_iff] at h; rw [Memory.wf_iff]; simpa using h

theorem dropPrefix_wf (n : Nat) (s : State) (h : Memory.wf s.cfg.rxbufCap s.rxbuf = true) :
    Memory.wf (dropPrefix n s).cfg.rxbufCap (dropPrefix n s).rxbuf = true := by
  rw [Memory.wf_iff] at h ⊢
  intro cap hc
  have := h cap hc
  simp only [dropPrefix_rxbuf, List.length_drop]; omega

theorem resetBlock_wf (s : State) :
    Memory.wf (resetBlock s).cfg.rxbufCap (resetBlock s).rxbuf = true := by
  rw [Memory.wf_iff]; intro n _; exact Nat.zero_le n

theorem resetOf_wf (c : Config) : Memory.wf (State.resetOf c).cfg.rxbufCap (State.resetOf c).rxbuf = true := by
  rw [Memory.wf_iff]; intro n _; exact Nat.zero_le n

theorem reset_wf : Memory.wf State.reset.cfg.rxbufCap State.reset.rxbuf = true := resetOf_wf _

end Sys2Proof.Machine
end

