-- ==== Sys2Proof/Laws/PerInstr.lean ====
section
/-! SUPPORT. The family `TableRow`: the row of the opcode table an instruction belongs to, and that its encoding carries
exactly the bits by which that row is selected (30_encoding.md R90, R95). One lemma per constructor. -/

namespace Sys2Proof.Laws.TableRow

/-- The bits that select an instruction's row: a command byte for a frame class, a 4-bit select for an operation. -/
inductive Select
  | command (b : Byte)
  | opsel   (n : BitVec 4)
deriving DecidableEq, Repr

/-- R90, R95: the column of select values, row by row. -/
def select : Instr → Select
  | .ping _ _ => .command 0x00
  | .rsvdFa _ _ => .command 0xFA
  | .rsvdFb _ _ => .command 0xFB
  | .bufOvf _ _ => .command 0xFC
  | .crcErr _ _ => .command 0xFD
  | .text _ _ => .command 0xFE
  | .wrong _ _ => .command 0xFF
  | .app _ cmd _ => .command cmd
  | .cksum _ => .opsel 0x0
  | .verify _ => .opsel 0x1
  | .enc _ _ _ _ => .opsel 0x2
  | .encf _ _ _ _ => .opsel 0x3
  | .decf _ _ => .opsel 0x4
  | .lookup _ => .opsel 0x5
  | .reg _ _ => .opsel 0x6
  | .lock => .opsel 0x7
  | .lastfRd => .opsel 0x8
  | .wakeAcq => .opsel 0x9
  | .wakeDrain => .opsel 0xA
  | .rst => .opsel 0xB
  | .rxpush _ => .opsel 0xC
  | .scan => .opsel 0xD
  | .dispatch _ _ => .opsel 0xE
  | .reservedF => .opsel 0xF

/-- In every build, a well-formed instruction's encoding carries its row's select bits; a frame class's is moreover a
frame whose marker, length and checksum hold. -/
def Statement (i : Instr) : Prop :=
  ∀ c : Config, WellFormed c i = true →
    match encode c i with
    | .frame f   => select i = .command (frameCommand c f) ∧ Machine.ValidFrame c c.markDec f
    | .request r => select i = .opsel r.opsel

theorem frame_carries (c : Config) (a cmd : Byte) (p : List Byte) (h : frameFieldsOk c a p = true) :
    Select.command cmd = .command (frameCommand c (rxFrame c a cmd p)) ∧
      Machine.ValidFrame c c.markDec (rxFrame c a cmd p) := by
  simp only [frameFieldsOk, Bool.and_eq_true, decide_eq_true_eq] at h
  exact ⟨by rw [rxFrame, frameCommand_buildFrame],
    framed_buildFrame _ _ _ _ _ h.1, (verifies_iff _ _).1 (verifies_buildFrame ..)⟩

theorem ping (addr : Byte) (payload : List Byte) : Statement (.ping addr payload) := fun c h => frame_carries c _ _ _ h

theorem rsvdFa (addr : Byte) (payload : List Byte) : Statement (.rsvdFa addr payload) := fun c h => frame_carries c _ _ _ h

theorem rsvdFb (addr : Byte) (payload : List Byte) : Statement (.rsvdFb addr payload) := fun c h => frame_carries c _ _ _ h

theorem bufOvf (addr : Byte) (payload : List Byte) : Statement (.bufOvf addr payload) := fun c h => frame_carries c _ _ _ h

theorem crcErr (addr : Byte) (payload : List Byte) : Statement (.crcErr addr payload) := fun c h => frame_carries c _ _ _ h

theorem text (addr : Byte) (payload : List Byte) : Statement (.text addr payload) := fun c h => frame_carries c _ _ _ h

theorem wrong (addr : Byte) (payload : List Byte) : Statement (.wrong addr payload) := fun c h => frame_carries c _ _ _ h

theorem app (addr : Byte) (cmd : Byte) (payload : List Byte) : Statement (.app addr cmd payload) := fun c h => frame_carries c _ _ _ (Bool.and_eq_true _ _ ▸ h).1

theorem cksum (bytes : List Byte) : Statement (.cksum bytes) := fun _ _ => rfl

theorem verify (frame : List Byte) : Statement (.verify frame) := fun _ _ => rfl

theorem enc (cmd : Byte) (addr : Byte) (payload : List Byte) (send : Bool) : Statement (.enc cmd addr payload send) := fun _ _ => rfl

theorem encf (cmd : Byte) (addr : Byte) (fields : List Field) (send : Bool) : Statement (.encf cmd addr fields send) := fun _ _ => rfl

theorem decf (frame : List Byte) (width : Nat) : Statement (.decf frame width) := fun _ _ => rfl

theorem lookup (code : Byte) : Statement (.lookup code) := fun _ _ => rfl

theorem reg (code : Byte) (index : Nat) : Statement (.reg code index) := fun _ _ => rfl

theorem lock : Statement .lock := fun _ _ => rfl

theorem lastfRd : Statement .lastfRd := fun _ _ => rfl

theorem wakeAcq : Statement .wakeAcq := fun _ _ => rfl

theorem wakeDrain : Statement .wakeDrain := fun _ _ => rfl

theorem rst : Statement .rst := fun _ _ => rfl

theorem rxpush (chunk : List Byte) : Statement (.rxpush chunk) := fun _ _ => rfl

theorem scan : Statement .scan := fun _ _ => rfl

theorem dispatch (frame : List Byte) (ok : Bool) : Statement (.dispatch frame ok) := fun _ _ => rfl

theorem reservedF : Statement .reservedF := fun _ _ => rfl

end Sys2Proof.Laws.TableRow
end

