-- ==== Sys2Proof/Laws/Resync.lean ====
section
/-! SUPPORT. The boundary detector, one iteration and a pass, each with the lemma that says once what it can do. -/

namespace Sys2Proof

open Machine

/-! ### Plausible starts -/

theorem plausibleAt_cons (c : Config) (x : Byte) (r : List Byte) (o n : Nat) :
    PlausibleAt c (x :: r) (o + 1) n ↔ PlausibleAt c r o n := by
  unfold PlausibleAt
  rw [show o + 1 + 2 = (o + 2) + 1 from rfl]
  simp only [List.getD_cons_succ, List.length_cons]
  constructor <;> rintro ⟨h, r⟩ <;> exact ⟨by omega, r⟩

theorem plausibleAt_unique (c : Config) (b : List Byte) (o n m : Nat) (h : PlausibleAt c b o n)
    (h' : PlausibleAt c b o m) : n = m := by
  rw [← h.2.2.2.1, h'.2.2.2.1]

/-- What the detector does at the head of what is left of the buffer. -/
theorem findFrom_cons (c : Config) (k : Nat) (x : Byte) (r : List Byte) :
    (r.length + 1 < c.minLen ∧ findFrom c k (x :: r) = .none) ∨
    ((∀ n, ¬ PlausibleAt c (x :: r) 0 n) ∧ findFrom c k (x :: r) = findFrom c (k + 1) r) ∨
    ∃ n, PlausibleAt c (x :: r) 0 n ∧
      ((n ≤ r.length + 1 ∧ findFrom c k (x :: r) = .candidate k n) ∨
       (r.length + 1 < n ∧ c.incompletePolicy = .hold ∧ findFrom c k (x :: r) = .hold k n) ∨
       (r.length + 1 < n ∧ c.incompletePolicy = .skip ∧ findFrom c k (x :: r) = findFrom c (k + 1) r)) := by
  have hp : ∀ n, PlausibleAt c (x :: r) 0 n ↔
      c.minLen ≤ r.length + 1 ∧ x = c.markDec.1 ∧ r.getD 0 0 = c.markDec.2 ∧ (r.getD 1 0).toNat = n ∧ c.minLen ≤ n := by
    intro n; unfold PlausibleAt; simp
  rw [findFrom]
  simp only [List.length_cons]
  split_ifs with h1 h2 h3
  · exact .inl ⟨h1, rfl⟩
  · exact .inr (.inr ⟨_, (hp _).2 ⟨by omega, h2.1, h2.2.1, rfl, h2.2.2⟩, .inl ⟨h3, rfl⟩⟩)
  · refine .inr (.inr ⟨_, (hp _).2 ⟨by omega, h2.1, h2.2.1, rfl, h2.2.2⟩, .inr ?_⟩)
    cases hh : c.incompletePolicy
    · exact .inl ⟨by omega, rfl, rfl⟩
    · exact .inr ⟨by omega, rfl, rfl⟩
  · refine .inr (.inl ⟨?_, rfl⟩)
    intro n h
    obtain ⟨-, b, d, e, f⟩ := (hp n).1 h
    exact h2 ⟨b, d, by omega⟩

/-- A candidate stands at a plausible start and is wholly in the buffer. -/
theorem findFrom_candidate (c : Config) (b : List Byte) (k o n : Nat) (h : findFrom c k b = .candidate o n) :
    ∃ p, o = k + p ∧ PlausibleAt c b p n ∧ p + n ≤ b.length := by
  induction b generalizing k with
  | nil => simp [findFrom] at h
  | cons x r ih =>
    have next : findFrom c (k + 1) r = .candidate o n →
        ∃ p, o = k + p ∧ PlausibleAt c (x :: r) p n ∧ p + n ≤ (x :: r).length := by
      intro h
      obtain ⟨p, rfl, hp, hl⟩ := ih _ h
      exact ⟨p + 1, by omega, (plausibleAt_cons ..).2 hp, by simp; omega⟩
    rcases findFrom_cons c k x r with ⟨-, e⟩ | ⟨-, e⟩ | ⟨m, hm, ⟨hl, e⟩ | ⟨-, -, e⟩ | ⟨-, -, e⟩⟩ <;> rw [e] at h
    · cases h
    · exact next h
    · cases h; exact ⟨0, rfl, hm, by simpa using hl⟩
    · cases h
    · exact next h

theorem find_candidate (c : Config) (b : List Byte) (o n : Nat) (h : find c b = .candidate o n) :
    PlausibleAt c b o n ∧ o + n ≤ b.length := by
  obtain ⟨p, rfl, hp⟩ := findFrom_candidate c b 0 o n h
  simpa using hp

/-! ### Slices -/

theorem slice_length (b : List Byte) (o n : Nat) (h : o + n ≤ b.length) : (slice b o n).length = n := by
  simp [slice]; omega

theorem slice_getD (b : List Byte) (o n i : Nat) (h : i < n) : (slice b o n).getD i 0 = b.getD (o + i) 0 := by
  simp [slice, List.getD_eq_getElem?_getD, h]

/-- The slice of a candidate has the marker and its own length. -/
theorem framed_of_candidate (c : Config) (b : List Byte) (o n : Nat) (h : find c b = .candidate o n) :
    Framed c c.markDec (slice b o n) := by
  obtain ⟨⟨-, h2, h3, h4, h5⟩, h6⟩ := find_candidate c b o n h
  have := c.five_le_minLen
  have hl := slice_length b o n h6
  refine ⟨by omega, ?_, ?_, ?_⟩ <;> rw [slice_getD _ _ _ _ (by omega)]
  · exact h2
  · exact h3
  · rw [h4, hl]

namespace Machine

/-! ### One iteration -/

theorem scanOnce_of_candidate (s : State) (o n : Nat) (h : find s.cfg s.rxbuf = .candidate o n) :
    scanOnce s =
      dropPrefix (o + n) (takeDispatch (slice s.rxbuf o n) (verifies s.cfg (slice s.rxbuf o n)) s) := by
  simp [scanOnce, h]

theorem scanOnce_of_no_candidate (s : State) (h : ∀ o n, find s.cfg s.rxbuf ≠ .candidate o n) :
    scanOnce s = endPass s := by
  unfold scanOnce; split
  · rename_i e; exact absurd e (h _ _)
  · rfl
  · rfl

theorem candidate_or_not (c : Config) (b : List Byte) :
    (∃ o n, find c b = .candidate o n) ∨ ∀ o n, find c b ≠ .candidate o n := by
  by_cases h : ∃ o n, find c b = .candidate o n
  · exact .inl h
  · exact .inr fun o n e => h ⟨o, n, e⟩

/-- All that one iteration can do: take one dispatch and drop its prefix, or end the pass. -/
theorem scanOnce_cases (s : State) :
    (∃ o n, find s.cfg s.rxbuf = .candidate o n ∧ s.cfg.minLen ≤ n ∧ o + n ≤ s.rxbuf.length ∧
      scanOnce s =
        dropPrefix (o + n) (takeDispatch (slice s.rxbuf o n) (verifies s.cfg (slice s.rxbuf o n)) s)) ∨
    ((∀ o n, find s.cfg s.rxbuf ≠ .candidate o n) ∧ scanOnce s = endPass s) := by
  rcases candidate_or_not s.cfg s.rxbuf with ⟨o, n, h⟩ | h
  · obtain ⟨hp, hl⟩ := find_candidate _ _ _ _ h
    exact .inl ⟨o, n, h, hp.2.2.2.2, hl, scanOnce_of_candidate s o n h⟩
  · exact .inr ⟨h, scanOnce_of_no_candidate s h⟩

@[simp] theorem scanOnce_cfg (s : State) : (scanOnce s).cfg = s.cfg := by
  rcases scanOnce_cases s with ⟨o, n, -, -, -, e⟩ | ⟨-, e⟩ <;> rw [e] <;> rfl

@[simp] theorem scanOnce_dt (s : State) : (scanOnce s).dt = s.dt := by
  rcases scanOnce_cases s with ⟨o, n, -, -, -, e⟩ | ⟨-, e⟩ <;> rw [e] <;> rfl

@[simp] theorem scanOnce_phase (s : State) : (scanOnce s).phase = s.phase := by
  rcases scanOnce_cases s with ⟨o, n, -, -, -, e⟩ | ⟨-, e⟩ <;> rw [e] <;> rfl

@[simp] theorem scanOnce_flt (s : State) : (scanOnce s).flt = s.flt := by
  rcases scanOnce_cases s with ⟨o, n, -, -, -, e⟩ | ⟨-, e⟩ <;> rw [e] <;> rfl

@[simp] theorem scanOnce_txout (s : State) : (scanOnce s).txout = s.txout := by
  rcases scanOnce_cases s with ⟨o, n, -, -, -, e⟩ | ⟨-, e⟩ <;> rw [e] <;> rfl

@[simp] theorem scanOnce_cmdPort (s : State) : (scanOnce s).cmdPort = s.cmdPort := by
  rcases scanOnce_cases s with ⟨o, n, -, -, -, e⟩ | ⟨-, e⟩ <;> rw [e] <;> rfl

@[simp] theorem scanOnce_rxPort (s : State) : (scanOnce s).rxPort = s.rxPort := by
  rcases scanOnce_cases s with ⟨o, n, -, -, -, e⟩ | ⟨-, e⟩ <;> rw [e] <;> rfl

@[simp] theorem scanOnce_rstPin (s : State) : (scanOnce s).rstPin = s.rstPin := by
  rcases scanOnce_cases s with ⟨o, n, -, -, -, e⟩ | ⟨-, e⟩ <;> rw [e] <;> rfl

@[simp] theorem scanOnce_closeReq (s : State) : (scanOnce s).closeReq = s.closeReq := by
  rcases scanOnce_cases s with ⟨o, n, -, -, -, e⟩ | ⟨-, e⟩ <;> rw [e] <;> rfl

@[simp] theorem scanOnce_sched (s : State) : (scanOnce s).sched = s.sched := by
  rcases scanOnce_cases s with ⟨o, n, -, -, -, e⟩ | ⟨-, e⟩ <;> rw [e] <;> rfl

@[simp] theorem scanOnce_grants (s : State) : (scanOnce s).grants = s.grants := by
  rcases scanOnce_cases s with ⟨o, n, -, -, -, e⟩ | ⟨-, e⟩ <;> rw [e] <;> rfl

/-! ### A pass -/

theorem runPass_of_ended (n : Nat) (s : State) (h : s.pass = false) : runPass n s = s := by
  cases n <;> simp [runPass, h]

theorem runPass_succ (n : Nat) (s : State) (h : s.pass = true) :
    runPass (n + 1) s = runPass n (giveResult (.scan (find s.cfg s.rxbuf)) (scanOnce s)) := by
  rw [runPass, if_pos h]

/-- What every iteration keeps, a pass keeps. -/
theorem runPass_induction (P : State → Prop)
    (h : ∀ s, s.pass = true → P s → P (giveResult (.scan (find s.cfg s.rxbuf)) (scanOnce s))) (n : Nat) (s : State)
    (hs : P s) : P (runPass n s) := by
  induction n generalizing s with
  | zero => exact hs
  | succ n ih =>
    cases hp : s.pass
    · rwa [runPass_of_ended _ _ hp]
    · rw [runPass_succ _ _ hp]; exact ih _ (h s hp hs)

theorem runPass_cfg (n : Nat) (s : State) : (runPass n s).cfg = s.cfg :=
  runPass_induction (fun t => t.cfg = s.cfg) (fun t _ h => by simpa using h) n s rfl

theorem runPass_phase (n : Nat) (s : State) : (runPass n s).phase = s.phase :=
  runPass_induction (fun t => t.phase = s.phase) (fun t _ h => by simpa using h) n s rfl

theorem runPass_dt (n : Nat) (s : State) : (runPass n s).dt = s.dt :=
  runPass_induction (fun t => t.dt = s.dt) (fun t _ h => by simpa using h) n s rfl

theorem runPass_outside (n : Nat) (s : State) :
    (runPass n s).cmdPort = s.cmdPort ∧ (runPass n s).rxPort = s.rxPort ∧ (runPass n s).rstPin = s.rstPin ∧
      (runPass n s).closeReq = s.closeReq :=
  runPass_induction
    (fun t => t.cmdPort = s.cmdPort ∧ t.rxPort = s.rxPort ∧ t.rstPin = s.rstPin ∧ t.closeReq = s.closeReq)
    (fun t _ h => by simpa using h) n s ⟨rfl, rfl, rfl, rfl⟩

/-- An iteration either shortens the buffer by `MIN_LEN` and leaves the pass open, or ends the pass. -/
theorem scanOnce_shortens (s : State) :
    ((scanOnce s).rxbuf.length + s.cfg.minLen ≤ s.rxbuf.length ∧ (scanOnce s).pass = s.pass) ∨
      (scanOnce s).pass = false := by
  rcases scanOnce_cases s with ⟨o, n, -, hn, hl, e⟩ | ⟨-, e⟩ <;> rw [e]
  · refine .inl ⟨?_, rfl⟩
    simp only [dropPrefix_rxbuf, takeDispatch_rxbuf, List.length_drop]; omega
  · exact .inr rfl

/-- A whole push in `RUN` with room is the append and the pass. -/
theorem pushWhole_of_room (chunk : List Byte) (s : State) (hr : s.phase = .run) (h : roomFor s chunk = true) :
    pushWhole chunk s =
      .next (runPass (passBound (giveResult .done (appendChunk chunk s))) (giveResult .done (appendChunk chunk s))) := by
  simp [pushWhole, execRxpush, hr, h]

end Machine

end Sys2Proof
end

