-- ==== Sys2Proof/Laws/Table.lean ====
section
/-! SUPPORT. Reading the dispatch table after a write and after reset; the reserved codes. -/

namespace Sys2Proof

theorem isReservedCode_iff (c : Byte) : isReservedCode c = true ↔ c.toNat = 0 ∨ 0xFA ≤ c.toNat := by
  simp only [isReservedCode, Bool.or_eq_true, beq_iff_eq, decide_eq_true_eq, ← BitVec.toNat_inj]; simp

namespace Machine

theorem dtRead_dtWrite (c d : Byte) (h : HandlerId) (s : State) :
    dtRead (dtWrite c h s) d = if d = c then h else dtRead s d := by
  unfold dtRead; simp only [dtWrite_dt, Vector.getElem_set]
  by_cases e : d = c
  · subst e; simp
  · rw [if_neg e, if_neg fun h => e (BitVec.eq_of_toNat_eq h.symm)]

theorem dtRead_resetOf (b : Config) (c : Byte) : dtRead (State.resetOf b) c = resetHandler c := by
  have h : ∀ c : Byte, dtReset[c.toNat]'c.isLt = resetHandler c := by decide +kernel
  exact h c

theorem resetHandler_wrong (c : Byte) (h : isReservedCode c = false) : resetHandler c = .wrong := by
  revert c; decide +kernel

/-- The table is all that `dtRead` reads. -/
theorem dtRead_congr (s t : State) (h : t.dt = s.dt) (c : Byte) : dtRead t c = dtRead s c := by
  unfold dtRead; simp only [h]

theorem selectHandler_congr (s t : State) (h : t.dt = s.dt) (hc : t.cfg = s.cfg) (f : List Byte) (ok : Bool) :
    selectHandler t f ok = selectHandler s f ok := by
  unfold selectHandler; rw [hc, dtRead_congr s t h]

end Machine

end Sys2Proof
end

