-- ==== Sys2Proof/Laws/Step.lean ====
section
/-! SUPPORT. What a step can do, said once: who moves (`nextAgent_some`), what an operation of the command port can do
(`command_cases`), both together (`step_cases`), and runs of steps end to end
(`steps_add`). -/

namespace Sys2Proof.Machine

/-- The choice of the agent touches the schedule and its counter only. -/
def choose (q : List Agent) (g : Nat) (s : State) : State := { s with sched := q, grants := g }

theorem granted_mem (g a : Agent) (as : List Agent) : granted g a as ∈ a :: as := by
  unfold granted; split
  · assumption
  · exact List.mem_cons_self

theorem mem_readyAgents (s : State) (a : Agent) : a ∈ readyAgents s ↔ ready s a = true := by
  unfold readyAgents; rw [List.mem_filter]; cases a <;> simp

/-- The agent chosen is ready. -/
theorem nextAgent_some (s t : State) (a : Agent) (h : nextAgent s = some (a, t)) :
    ready s a = true ∧ ∃ q g, t = choose q g s := by
  rw [← mem_readyAgents]
  unfold nextAgent at h
  split at h
  · cases h
  · rename_i b e; cases h; exact ⟨by rw [e]; exact List.mem_cons_self, s.sched, s.grants, rfl⟩
  · rename_i b c as e
    rw [e]
    split at h <;> cases h
    · exact ⟨granted_mem .., _, s.grants, rfl⟩
    · exact ⟨granted_mem .., s.sched, _, rfl⟩

theorem nextAgent_none (s : State) : nextAgent s = none ↔ readyAgents s = [] := by
  unfold nextAgent; split <;> simp_all; split <;> simp

theorem nextAgent_single (s : State) (a : Agent) (h : readyAgents s = [a]) : nextAgent s = some (a, s) := by
  unfold nextAgent; rw [h]

/-- All that an operation of the command port can do to the state, when it answers a next state. -/
theorem command_cases (i : Instr) (s t : State) (hi : onCommandPort i = true) (h : exec i s = .next t) :
    (∃ r, t = giveResult r s) ∨
    (waitsForPass i = true ∧ ∃ cmd addr payload, payload.length ≤ s.cfg.maxPayload ∧
      ((i = .enc cmd addr payload true) ∨ ∃ fs, i = .encf cmd addr fs true) ∧
      t = giveResult (.frame (buildFrame s.cfg s.cfg.markEnc addr cmd payload))
        (emitTx true (buildFrame s.cfg s.cfg.markEnc addr cmd payload) s)) ∨
    (∃ c k, i = .reg c k ∧ s.phase = .setup ∧ k < s.cfg.nApp ∧ isReservedCode c = false ∧
      t = giveResult .done (dtWrite c (.app k) s)) ∨
    t = giveResult .done { s with phase := .run } ∨
    (i = .wakeAcq ∧ ∃ n, s.wakeCnt = n + 1 ∧ t = giveResult (.bit true) { s with wakeCnt := n }) ∨
    (i = .wakeDrain ∧ t = giveResult (.count s.wakeCnt) { s with wakeCnt := 0 }) ∨
    (i = .rst ∧ t = giveResult .done (resetBlock s)) := by
  have enc : ∀ cmd addr payload send, t = encodeFrame cmd addr payload send s →
      (∃ r, t = giveResult r s) ∨
      (send = true ∧ payload.length ≤ s.cfg.maxPayload ∧
        t = giveResult (.frame (buildFrame s.cfg s.cfg.markEnc addr cmd payload))
          (emitTx true (buildFrame s.cfg s.cfg.markEnc addr cmd payload) s)) := by
    rintro cmd addr payload send rfl
    unfold encodeFrame; split
    · cases send
      · exact .inl ⟨_, rfl⟩
      · exact .inr ⟨rfl, by assumption, rfl⟩
    · exact .inl ⟨_, rfl⟩
  cases i <;> simp only [onCommandPort, Bool.false_eq_true] at hi <;> simp only [exec] at h
  case cksum b => cases h; exact .inl ⟨_, rfl⟩
  case verify f => unfold execVerify at h; split at h <;> cases h; exact .inl ⟨_, rfl⟩
  case enc cmd addr payload send =>
    cases h
    rcases enc cmd addr payload send rfl with h | ⟨rfl, hl, h⟩
    · exact .inl h
    · exact .inr (.inl ⟨rfl, cmd, addr, payload, hl, .inl rfl, h⟩)
  case encf cmd addr fs send =>
    unfold execEncf at h; split at h <;> cases h
    rcases enc cmd addr _ send rfl with h | ⟨rfl, hl, h⟩
    · exact .inl h
    · exact .inr (.inl ⟨rfl, cmd, addr, _, hl, .inr ⟨fs, rfl⟩, h⟩)
  case decf f n => unfold execDecf at h; split at h <;> cases h <;> exact .inl ⟨_, rfl⟩
  case lookup c => cases h; exact .inl ⟨_, rfl⟩
  case reg c k =>
    unfold execReg at h; split_ifs at h with h1 h2 h3 <;> cases h
    · exact .inl ⟨_, rfl⟩
    · exact .inl ⟨_, rfl⟩
    · refine .inr (.inr (.inl ⟨c, k, rfl, ?_, by omega, by simpa using h3, rfl⟩))
      cases hp : s.phase
      · rfl
      · exact absurd hp h2
  case lock => cases h; exact .inr (.inr (.inr (.inl rfl)))
  case lastfRd => unfold execLastfRd at h; split at h <;> cases h <;> exact .inl ⟨_, rfl⟩
  case wakeAcq =>
    unfold execWakeAcq at h; split at h <;> cases h
    · exact .inl ⟨_, rfl⟩
    · exact .inr (.inr (.inr (.inr (.inl ⟨rfl, s.wakeCnt - 1, by omega, rfl⟩))))
  case wakeDrain => cases h; exact .inr (.inr (.inr (.inr (.inr (.inl ⟨rfl, rfl⟩)))))
  case rst => cases h; exact .inr (.inr (.inr (.inr (.inr (.inr ⟨rfl, rfl⟩)))))
  case reservedF => cases h

/-- An operation of the command port leaves both ports and the outside lines. -/
theorem command_outside (i : Instr) (s t : State) (hi : onCommandPort i = true) (h : exec i s = .next t) :
    t.cmdPort = s.cmdPort ∧ t.rxPort = s.rxPort ∧ t.rstPin = s.rstPin ∧ t.closeReq = s.closeReq := by
  rcases command_cases i s t hi h with
    ⟨r, rfl⟩ | ⟨-, cmd, addr, p, -, -, rfl⟩ | ⟨c, k, -, -, -, -, rfl⟩ | rfl | ⟨-, n, -, rfl⟩ | ⟨-, rfl⟩ | ⟨-, rfl⟩ <;>
  exact ⟨rfl, rfl, rfl, rfl⟩

/-- All that `RXPUSH` can do. -/
theorem rxpush_cases (chunk : List Byte) (s t : State) (h : exec (.rxpush chunk) s = .next t) :
    s.phase = .run ∧
    ((roomFor s chunk = true ∧ t = giveResult .done (appendChunk chunk s)) ∨
     (roomFor s chunk = false ∧ t = rxOverflow s)) := by
  simp only [exec, execRxpush] at h
  split_ifs at h with h1 h2 <;> cases h
  · exact ⟨by cases hp : s.phase <;> simp_all, .inl ⟨h2, rfl⟩⟩
  · exact ⟨by cases hp : s.phase <;> simp_all, .inr ⟨by simpa using h2, rfl⟩⟩

/-- Only the ports, the lines and the pass decide who is ready: with no request and no line asserted, the I/O context alone
is, if a pass is open or a chunk waits. -/
theorem readyAgents_io (s : State) (hc : s.cmdPort = []) (hr : s.rstPin = false) (hx : s.closeReq = false)
    (h : s.pass = true ∨ s.rxPort ≠ []) : readyAgents s = [.io] := by
  have hi : ready s .io = true := by
    rcases h with h | h
    · simp [ready, h]
    · cases hp : s.rxPort with
      | nil => exact absurd hp h
      | cons a b => simp [ready, hp]
  have h1 : ready s .caller = false := by simp [ready, hc]
  have h2 : ready s .resetInput = false := by simp [ready, hr]
  have h3 : ready s .channelClose = false := by simp [ready, hx]
  simp [readyAgents, List.filter, hi, h1, h2, h3]

/-- A step with one agent ready is that agent's. -/
theorem step_single (s : State) (a : Agent) (h : readyAgents s = [a]) : step s = act a s := by
  unfold step stepOnce; rw [nextAgent_single s a h]

/-- All that a step can do, when it answers a next state: wait, or let one ready agent act on the state that the choice
left. -/
theorem step_cases (s t : State) (h : step s = .next t) :
    (readyAgents s = [] ∧ t = s) ∨
    ∃ q g,
      (∃ r rest, s.cmdPort = r :: rest ∧ onCommandPort (decodeRequest r) = true ∧
        (s.pass = true → waitsForPass (decodeRequest r) = false) ∧
        exec (decodeRequest r) { choose q g s with cmdPort := rest } = .next t) ∨
      (s.pass = true ∧ t = giveResult (.scan (find s.cfg s.rxbuf)) (scanOnce (choose q g s))) ∨
      (s.pass = false ∧ ∃ chunk rest, s.rxPort = chunk :: rest ∧
        exec (.rxpush chunk) { choose q g s with rxPort := rest } = .next t) ∨
      (s.rstPin = true ∧ s.pass = false ∧ t = giveResult .done (resetBlock { choose q g s with rstPin := false })) ∨
      (s.closeReq = true ∧ s.pass = false ∧ t = wakeRelease { choose q g s with closeReq := false }) := by
  unfold step stepOnce at h
  split at h
  · rename_i e; cases h; exact .inl ⟨(nextAgent_none s).1 e, rfl⟩
  · rename_i a u e
    obtain ⟨hr, q, g, rfl⟩ := nextAgent_some s u a e
    refine .inr ⟨q, g, ?_⟩
    cases a <;> simp only [act] at h
    · unfold callerStep at h
      cases hc : s.cmdPort with
      | nil => simp [ready, hc] at hr
      | cons r rest =>
        rw [show (choose q g s).cmdPort = r :: rest from hc] at h
        simp only at h
        split_ifs at h with ho
        exact .inl ⟨r, rest, rfl, ho, fun hp => by simpa [ready, hc, hp] using hr, h⟩
    · unfold ioStep at h
      cases hp : s.pass
      · rw [if_neg (by rw [show (choose q g s).pass = false from hp]; simp)] at h
        cases hc : s.rxPort with
        | nil => simp [ready, hc, hp] at hr
        | cons chunk rest =>
          rw [show (choose q g s).rxPort = chunk :: rest from hc] at h
          exact .inr (.inr (.inl ⟨rfl, chunk, rest, rfl, h⟩))
      · rw [if_pos (show (choose q g s).pass = true from hp)] at h
        cases h; exact .inr (.inl ⟨rfl, rfl⟩)
    · simp only [ready, Bool.and_eq_true, Bool.not_eq_true'] at hr
      cases h; exact .inr (.inr (.inr (.inl ⟨hr.1, hr.2, rfl⟩)))
    · simp only [ready, Bool.and_eq_true, Bool.not_eq_true'] at hr
      cases h; exact .inr (.inr (.inr (.inr ⟨hr.1, hr.2, rfl⟩)))

/-! ### Runs -/

@[simp] theorem steps_zero (s : State) : steps 0 s = .next s := rfl

theorem steps_succ_of_next (k : Nat) (s t : State) (h : step s = .next t) : steps (k + 1) s = steps k t := by
  rw [steps, h]

/-- Runs join end to end. -/
theorem steps_add (j k : Nat) (s t : State) (h : steps j s = .next t) : steps (j + k) s = steps k t := by
  induction j generalizing s with
  | zero => cases h; rw [Nat.zero_add]
  | succ j ih =>
    rw [steps] at h
    rw [Nat.succ_add, steps]
    split at h
    · exact ih _ h
    · cases h
    · cases h

end Sys2Proof.Machine
end

