-- ==== Sys2Proof/Tests/Slice0.lean ====
section
/-! SUPPORT. Tests: well-formedness, decoding, one or two steps per instruction, and a witness for the hypotheses of each
obligation. Expected values are from spec/95_test_vectors.md (V<n>) or worked out by hand from the rule named. -/

namespace Sys2Proof.Tests

-- One theorem at a time: the kernel evaluations below otherwise each hold a thread of their own.
set_option Elab.async false

open Sys2Proof Sys2Proof.Machine

/-! ### Helpers -/

/-- A next state with the property. -/
def after (a : Answer) (p : State → Bool) : Bool :=
  match a with
  | .next t => p t
  | .fault _ => false
  | .refused _ => false

/-- A refusal with the reason. -/
def refusedFor (a : Answer) (e : Refusal) : Bool :=
  match a with
  | .next _ => false
  | .fault _ => false
  | .refused r => r == e

/-- The default build in `RUN`. -/
def run : State := { State.reset with phase := .run }

/-- Variant A, variant XOR8, a finite buffer, policy `skip`. -/
def cfgA : Config := { Config.default with hasAddr := true }
def cfgXor : Config := { Config.default with ckKind := .xor8 }
def cfgBig : Config := { Config.default with fieldOrder := .big }
def cfgCap : Config := { Config.default with rxbufCap := some 8 }
def cfgSkip : Config := { Config.default with incompletePolicy := .skip }

def pingRx : List Byte := [0xAA, 0x55, 0x05, 0x00, 0x54]
def f1 : List Byte := [0xAA, 0x55, 0x08, 0x10, 0x01, 0x02, 0x03, 0xC3]
def f1Bad : List Byte := [0xAA, 0x55, 0x08, 0x10, 0x01, 0x06, 0x03, 0xC3]
def f2 : List Byte := [0xAA, 0x55, 0x07, 0x21, 0x34, 0x12, 0xF0]

/-! ### Well-formedness: one ill-formed term for each check -/

theorem test_wf_payload_too_long : WellFormed Config.default (.ping 0 (List.replicate 251 0)) = false := by
  decide +kernel
theorem test_wf_payload_longest : WellFormed Config.default (.ping 0 (List.replicate 250 0)) = true := by
  decide +kernel
theorem test_wf_no_address_in_NA : WellFormed Config.default (.text 1 []) = false := by decide
theorem test_wf_address_in_A : WellFormed cfgA (.text 1 []) = true := by decide
theorem test_wf_app_reserved : WellFormed Config.default (.app 0 0xFA []) = false := by decide
theorem test_wf_app_payload : WellFormed cfgA (.app 0 0x10 (List.replicate 250 0)) = false := by decide +kernel
theorem test_wf_verify_empty : WellFormed Config.default (.verify []) = false := by decide
theorem test_wf_field_zero_width : WellFormed Config.default (.encf 0 0 [⟨0, 0⟩] false) = false := by decide
theorem test_wf_field_too_large : WellFormed Config.default (.encf 0 0 [⟨2, 65536⟩] false) = false := by
  decide
theorem test_wf_handler_index : WellFormed Config.default (.reg 0x10 249) = false := by decide
theorem test_wf_dispatch_short : WellFormed Config.default (.dispatch [0xAA, 0x55, 0x03] true) = false := by
  decide

/-! ### Decoding: a word of each row (V71, V26 to V39; 30_encoding.md R95) -/

theorem test_decode_ping : decode Config.default (.frame pingRx) = .instr (.ping 0 []) := by decide +kernel
theorem test_decode_app : decode Config.default (.frame f1) = .instr (.app 0 0x10 [1, 2, 3]) := by decide +kernel
theorem test_decode_app_lowest :
    decode Config.default (.frame [0xAA, 0x55, 0x05, 0x01, 0x49]) = .instr (.app 0 0x01 []) := by decide +kernel
theorem test_decode_app_highest :
    decode Config.default (.frame [0xAA, 0x55, 0x05, 0xF9, 0xDE]) = .instr (.app 0 0xF9 []) := by decide +kernel
theorem test_decode_rsvdFa :
    decode Config.default (.frame [0xAA, 0x55, 0x05, 0xFA, 0xF9]) = .instr (.rsvdFa 0 []) := by decide +kernel
theorem test_decode_rsvdFb :
    decode Config.default (.frame [0xAA, 0x55, 0x05, 0xFB, 0xE4]) = .instr (.rsvdFb 0 []) := by decide +kernel
theorem test_decode_bufOvf :
    decode Config.default (.frame [0xAA, 0x55, 0x05, 0xFC, 0xB7]) = .instr (.bufOvf 0 []) := by decide +kernel
theorem test_decode_crcErr :
    decode Config.default (.frame [0xAA, 0x55, 0x05, 0xFD, 0xAA]) = .instr (.crcErr 0 []) := by decide +kernel
theorem test_decode_text :
    decode Config.default (.frame [0xAA, 0x55, 0x07, 0xFE, 0x48, 0x69, 0x04]) = .instr (.text 0 [0x48, 0x69]) := by
  decide +kernel
theorem test_decode_wrong :
    decode Config.default (.frame [0xAA, 0x55, 0x05, 0xFF, 0x90]) = .instr (.wrong 0 []) := by decide +kernel
theorem test_decode_variant_A :
    decode cfgA (.frame [0xAA, 0x55, 0x07, 0x05, 0x30, 0xAB, 0x72]) = .instr (.app 5 0x30 [0xAB]) := by decide +kernel
theorem test_decode_variant_A_ping :
    decode cfgA (.frame [0xAA, 0x55, 0x06, 0x07, 0x00, 0xDF]) = .instr (.ping 7 []) := by decide +kernel
theorem test_decode_xor8 : decode cfgXor (.frame [0xAA, 0x55, 0x05, 0x00, 0xFA]) = .instr (.ping 0 []) := by
  decide
/-- V53: a frame of variant A read by a block of variant NA. -/
theorem test_decode_variant_mismatch :
    decode Config.default (.frame [0xAA, 0x55, 0x07, 0x05, 0x30, 0xAB, 0x72]) = .instr (.app 0 0x05 [0x30, 0xAB]) := by
  decide +kernel

theorem test_reject_short : decode Config.default (.frame [0xAA, 0x55, 0x05, 0x00]) = .reject .tooShort := by
  decide
theorem test_reject_own_marker :
    decode Config.default (.frame [0x55, 0xAA, 0x05, 0x00, 0xFC]) = .reject .notStart := by decide
theorem test_reject_length_below_minimum :
    decode Config.default (.frame [0xAA, 0x55, 0x04, 0x00, 0x00]) = .reject .illegalLength := by decide
theorem test_reject_length_mismatch :
    decode Config.default (.frame [0xAA, 0x55, 0x06, 0x00, 0x54]) = .reject .lengthMismatch := by decide
theorem test_reject_checksum :
    decode Config.default (.frame [0xAA, 0x55, 0x05, 0x77, 0x5F]) = .reject .badChecksum := by decide +kernel

theorem test_decode_cksum :
    decode Config.default (.request ⟨0x0, { Operands.none with bytes := [1] }⟩) = .instr (.cksum [1]) := by decide
theorem test_decode_verify :
    decode Config.default (.request ⟨0x1, { Operands.none with bytes := [1] }⟩) = .instr (.verify [1]) := by decide
theorem test_decode_enc :
    decode Config.default (.request ⟨0x2, ⟨[1, 2], 0x10, 5, [], 0, true⟩⟩) = .instr (.enc 0x10 5 [1, 2] true) := by decide
theorem test_decode_encf :
    decode Config.default (.request ⟨0x3, ⟨[], 0x21, 5, [⟨2, 0x1234⟩], 0, false⟩⟩) =
      .instr (.encf 0x21 5 [⟨2, 0x1234⟩] false) := by decide
theorem test_decode_decf :
    decode Config.default (.request ⟨0x4, { Operands.none with bytes := f2, num := 2 }⟩) = .instr (.decf f2 2) := by decide
theorem test_decode_lookup :
    decode Config.default (.request ⟨0x5, { Operands.none with code := 0x10 }⟩) = .instr (.lookup 0x10) := by decide
theorem test_decode_reg :
    decode Config.default (.request ⟨0x6, { Operands.none with code := 0x10, num := 3 }⟩) = .instr (.reg 0x10 3) := by
  decide
theorem test_decode_lock : decode Config.default (.request ⟨0x7, Operands.none⟩) = .instr .lock := by decide
theorem test_decode_lastfRd : decode Config.default (.request ⟨0x8, Operands.none⟩) = .instr .lastfRd := by decide
theorem test_decode_wakeAcq : decode Config.default (.request ⟨0x9, Operands.none⟩) = .instr .wakeAcq := by decide
theorem test_decode_wakeDrain : decode Config.default (.request ⟨0xA, Operands.none⟩) = .instr .wakeDrain := by decide
theorem test_decode_rst : decode Config.default (.request ⟨0xB, Operands.none⟩) = .instr .rst := by decide
theorem test_decode_rxpush :
    decode Config.default (.request ⟨0xC, { Operands.none with bytes := [0xAA] }⟩) = .instr (.rxpush [0xAA]) := by decide
theorem test_decode_scan : decode Config.default (.request ⟨0xD, Operands.none⟩) = .instr .scan := by decide
theorem test_decode_dispatch :
    decode Config.default (.request ⟨0xE, { Operands.none with bytes := f1, flag := true }⟩) =
      .instr (.dispatch f1 true) := by decide
theorem test_decode_reservedF : decode Config.default (.request ⟨0xF, Operands.none⟩) = .instr .reservedF := by decide

theorem test_table_word_command : decodeTableWord 8 0xFE = some (.text 0 []) := by decide +kernel
theorem test_table_word_opsel : decodeTableWord 4 0x7 = some .lock := by decide
theorem test_table_word_none : decodeTableWord 16 0x7 = none := by decide

/-! ### One step per instruction -/

/-- V2, V1: the two vectors of the source. -/
theorem test_cksum_one : after (exec (.cksum [0x01]) State.reset) (·.results == [.byte 0x1D]) = true := by decide
/-- V25. -/
theorem test_cksum_xor8 :
    after (exec (.cksum [0x01, 0x1D]) (State.resetOf cfgXor)) (·.results == [.byte 0x1C]) = true := by decide
/-- V24. -/
theorem test_verify_good : after (exec (.verify pingRx) State.reset) (·.results == [.bit true]) = true := by
  decide +kernel
theorem test_verify_one_byte : after (exec (.verify [0x01]) State.reset) (·.results == [.bit false]) = true := by
  decide
/-- V27, sent. -/
theorem test_enc_sent :
    after (exec (.enc 0x10 0 [1, 2, 3] true) State.reset)
      (·.txout == [[0x55, 0xAA, 0x08, 0x10, 0x01, 0x02, 0x03, 0x3F]]) = true := by decide +kernel
/-- V33: the first failing size emits nothing. -/
theorem test_enc_too_long :
    after (exec (.enc 0x42 0 (List.replicate 251 0) true) State.reset)
      (fun t => t.results == [.raised (.encodingError 251)] && t.txout == []) = true := by decide +kernel
/-- V30: three packed fields. -/
theorem test_encf_fields :
    after (exec (.encf 0x23 0 [⟨1, 0x07⟩, ⟨2, 0x0102⟩, ⟨4, 0x0A0B0C0D⟩] false) State.reset)
      (fun t => t.results == [.frame [0x55, 0xAA, 0x0C, 0x23, 0x07, 0x02, 0x01, 0x0D, 0x0C, 0x0B, 0x0A, 0xC7]] &&
        t.txout == []) = true := by decide +kernel
/-- R117, R201. -/
theorem test_encf_too_large :
    refusedFor (exec (.encf 0x23 0 [⟨1, 256⟩] true) State.reset) .badOperand = true := by decide
/-- V39. -/
theorem test_decf_field : after (exec (.decf f2 2) State.reset) (·.results == [.number 0x1234]) = true := by
  decide
/-- V39b: a width one too large must not reach the checksum byte. -/
theorem test_decf_too_wide : after (exec (.decf f2 3) State.reset) (·.results == [.raised .decodeRange]) = true := by
  decide
/-- V4. -/
theorem test_lookup_text : after (exec (.lookup 0xFE) State.reset) (·.results == [.handler .text]) = true := by
  decide
theorem test_lookup_reserved : after (exec (.lookup 0xFA) State.reset) (·.results == [.handler .wrong]) = true := by
  decide
/-- V70: the highest application code. -/
theorem test_reg_highest :
    after (exec (.reg 0xF9 1) State.reset)
      (fun t => dtRead t 0xF9 == .app 1 && dtRead t 0xF8 == .wrong && t.results == [.done]) = true := by decide
/-- V70: `Locked` is tested before `Reserved`. -/
theorem test_reg_locked_first :
    after (exec (.reg 0x00 0) run) (·.results == [.raised (.registrationLocked 0x00)]) = true := by decide
/-- V75. -/
theorem test_lock_twice : after (exec .lock run) (·.phase == .run) = true := by decide
/-- V72. -/
theorem test_lastf_invalid : after (exec .lastfRd State.reset) (·.results == [.raised .lastfInvalid]) = true := by
  decide
/-- V74: reading keeps the latch. -/
theorem test_lastf_read :
    after (exec .lastfRd { run with lastf := some ⟨.app 0, f1, true⟩ })
      (fun t => t.results == [.latch ⟨.app 0, f1, true⟩] && t.lastf == some ⟨.app 0, f1, true⟩) = true := by
  decide
/-- V81, V80. -/
theorem test_wakeAcq_two :
    after (exec .wakeAcq { run with wakeCnt := 2 }) (fun t => t.results == [.bit true] && t.wakeCnt == 1) = true := by
  decide
theorem test_wakeAcq_zero : after (exec .wakeAcq State.reset) (·.results == [.bit false]) = true := by decide
/-- V82. -/
theorem test_wakeDrain :
    after (exec .wakeDrain { run with wakeCnt := 3 }) (fun t => t.results == [.count 3] && t.wakeCnt == 0) = true := by
  decide
/-- V76. -/
theorem test_rst :
    after (exec .rst (dtWrite 0x10 (.app 0) { run with rxbuf := f1, wakeCnt := 2, flt := ⟨true⟩ }))
      (fun t => dtRead t 0x10 == .wrong && t.phase == .setup && t.rxbuf == [] && t.wakeCnt == 0 && !t.flt.rxovf) =
      true := by decide
/-- V62: the third byte too many. -/
theorem test_rxpush_overflow :
    after (exec (.rxpush [7, 8, 9]) { run with cfg := cfgCap, rxbuf := [1, 2, 3, 4, 5, 6] })
      (fun t => t.rxbuf == [1, 2, 3, 4, 5, 6] && t.flt.rxovf && !t.pass &&
        t.results == [.raised .rxOverflow]) = true := by decide
/-- V61. -/
theorem test_rxpush_setup : refusedFor (exec (.rxpush [0xAA]) State.reset) .notRunning = true := by decide
/-- V41: four bytes of garbage, then `F1`. -/
theorem test_scan_garbage :
    after (exec .scan { dtWrite 0x10 (.app 0) run with rxbuf := [0x00, 0xFF, 0xAA, 0x13] ++ f1, pass := true })
      (fun t => t.displog == [⟨.app 0, f1, true⟩] && t.rxbuf == [] && t.wakeCnt == 1 && t.pass &&
        t.results == [.scan (.candidate 4 8)]) = true := by decide +kernel
/-- V49: a length byte one too small cuts a short slice that fails. -/
theorem test_scan_short_length :
    after (exec .scan { run with rxbuf := [0xAA, 0x55, 0x07, 0x10, 0x01, 0x02, 0x03, 0xC3] ++ pingRx, pass := true })
      (fun t => t.displog == [⟨.crcErr, [0xAA, 0x55, 0x07, 0x10, 0x01, 0x02, 0x03], false⟩] &&
        t.rxbuf == 0xC3 :: pingRx) = true := by decide +kernel
/-- V45 under both policies: a false claim of 32 bytes. -/
theorem test_find_hold : find Config.default ([0xAA, 0x55, 0x20] ++ f1) = .hold 0 32 := by decide
theorem test_find_skip : find cfgSkip ([0xAA, 0x55, 0x20] ++ f1) = .candidate 3 8 := by decide
/-- V64: a CRC error wins over the command byte. -/
theorem test_dispatch_failed :
    after (exec (.dispatch f1Bad false) (dtWrite 0x10 (.app 0) run))
      (fun t => t.lastf == some ⟨.crcErr, f1Bad, false⟩ && t.displog == [⟨.crcErr, f1Bad, false⟩] && t.wakeCnt == 1) =
      true := by decide
theorem test_dispatch_verified :
    after (exec (.dispatch f1 true) (dtWrite 0x10 (.app 0) run)) (·.lastf == some ⟨.app 0, f1, true⟩) = true := by
  decide
/-- V84. -/
theorem test_reservedF : refusedFor (exec .reservedF State.reset) .badOp = true := by decide

/-- V71, row by row. -/
theorem test_ping : after (exec (.ping 0 []) run) (·.displog == [⟨.ping, pingRx, true⟩]) = true := by decide +kernel
theorem test_rsvdFa :
    after (exec (.rsvdFa 0 []) run) (·.displog == [⟨.wrong, [0xAA, 0x55, 0x05, 0xFA, 0xF9], true⟩]) = true := by
  decide +kernel
theorem test_rsvdFb :
    after (exec (.rsvdFb 0 []) run) (·.displog == [⟨.wrong, [0xAA, 0x55, 0x05, 0xFB, 0xE4], true⟩]) = true := by
  decide +kernel
theorem test_bufOvf :
    after (exec (.bufOvf 0 []) run) (·.displog == [⟨.bufOvf, [0xAA, 0x55, 0x05, 0xFC, 0xB7], true⟩]) = true := by
  decide +kernel
theorem test_crcErr :
    after (exec (.crcErr 0 []) run) (·.displog == [⟨.crcErr, [0xAA, 0x55, 0x05, 0xFD, 0xAA], true⟩]) = true := by
  decide +kernel
theorem test_text :
    after (exec (.text 0 [0x48, 0x69]) run)
      (·.displog == [⟨.text, [0xAA, 0x55, 0x07, 0xFE, 0x48, 0x69, 0x04], true⟩]) = true := by decide +kernel
theorem test_wrong :
    after (exec (.wrong 0 []) run) (·.displog == [⟨.wrong, [0xAA, 0x55, 0x05, 0xFF, 0x90], true⟩]) = true := by
  decide +kernel
theorem test_app_registered :
    after (exec (.app 0 0x01 []) (dtWrite 0x01 (.app 2) run))
      (·.displog == [⟨.app 2, [0xAA, 0x55, 0x05, 0x01, 0x49], true⟩]) = true := by decide +kernel
theorem test_app_variant_A :
    after (exec (.app 9 0x30 [0xAB]) { run with cfg := cfgA })
      (·.displog == [⟨.wrong, [0xAA, 0x55, 0x07, 0x09, 0x30, 0xAB, 0x78], true⟩]) = true := by decide +kernel

/-- R63: inside a pass a transmission waits and the iteration goes first; a read of the latch does not have to wait. -/
theorem test_send_waits_for_pass :
    readyAgents { run with pass := true, cmdPort := [⟨0x2, { Operands.none with flag := true }⟩] } = [.io] := by
  decide
theorem test_read_may_fall_in_pass :
    readyAgents { run with pass := true, cmdPort := [⟨0x8, Operands.none⟩] } = [.caller, .io] := by decide
/-- R62: the schedule decides between two ready agents. -/
theorem test_schedule_names_io :
    after (step { run with cmdPort := [⟨0x7, Operands.none⟩], rxPort := [[0x01]], sched := [.io] })
      (fun t => t.rxbuf == [0x01] && t.cmdPort.length == 1 && t.sched == []) = true := by decide

/-! ### Witnesses: a state and operands that meet the hypotheses of each obligation that has any -/

theorem witness_CksumGivesTheChecksum : State.reset.cfg.ckKind = .crc8 ∧ (State.resetOf cfgXor).cfg.ckKind = .xor8 := by
  decide
theorem witness_VerifyTestsTheTrailingByte : State.reset.cfg.ckKind = .crc8 := by decide
theorem witness_ResetStateIsAsTabled :
    (0xFF : Byte) ≠ 0x00 ∧ (0xFF : Byte) ≠ 0xFC ∧ (0xFF : Byte) ≠ 0xFD ∧ (0xFF : Byte) ≠ 0xFE := by decide
theorem witness_ChecksumIsLinear : ([0x12, 0x34, 0x56] : List Byte).length = ([0xAB, 0xCD, 0xEF] : List Byte).length := by
  decide
/-- The last payload that fits and the first that does not, in both variants. -/
theorem witness_EncBuildsTheFrame :
    ((List.replicate 250 0 : List Byte).length ≤ 250 - (if State.reset.cfg.hasAddr then 1 else 0)) ∧
    (250 - (if State.reset.cfg.hasAddr then 1 else 0) < (List.replicate 251 0 : List Byte).length) ∧
    ((List.replicate 249 0 : List Byte).length ≤ 250 - (if (State.resetOf cfgA).cfg.hasAddr then 1 else 0)) ∧
    (250 - (if (State.resetOf cfgA).cfg.hasAddr then 1 else 0) < (List.replicate 250 0 : List Byte).length) := by
  decide +kernel
theorem witness_EncodedFrameIsValid :
    (List.replicate 250 0 : List Byte).length ≤ Config.default.maxPayload ∧
    (List.replicate 249 0 : List Byte).length ≤ cfgA.maxPayload := by decide +kernel
theorem witness_EncfSerializesItsFields :
    (∀ f ∈ ([⟨1, 255⟩, ⟨2, 65535⟩] : List Field), 1 ≤ f.width ∧ f.value < 256 ^ f.width) ∧
    (∃ f ∈ ([⟨2, 65536⟩] : List Field), f.width = 0 ∨ 256 ^ f.width ≤ f.value) ∧
    (∃ f ∈ ([⟨0, 0⟩] : List Field), f.width = 0 ∨ 256 ^ f.width ≤ f.value) := by decide
/-- The widest field that fits, one wider, and a frame one byte too short. -/
theorem witness_DecfReadsTheField :
    (State.reset.cfg.minLen ≤ f2.length ∧ 2 + State.reset.cfg.hdr + 1 ≤ f2.length) ∧
    ¬ (State.reset.cfg.minLen ≤ f2.length ∧ 3 + State.reset.cfg.hdr + 1 ≤ f2.length) ∧
    ¬ (State.reset.cfg.minLen ≤ 4 ∧ 0 + State.reset.cfg.hdr + 1 ≤ 4) ∧
    State.reset.cfg.fieldOrder = .little ∧ (State.resetOf cfgBig).cfg.fieldOrder = .big := by decide
theorem witness_DecfUndoesEncf :
    1 ≤ 250 ∧ 250 ≤ State.reset.cfg.maxPayload ∧ 256 ^ 250 - 1 < 256 ^ 250 := by
  refine ⟨by omega, by decide, Nat.sub_lt (Nat.pow_pos (by omega)) (by omega)⟩
theorem witness_NarrowFieldIsLowBytes :
    State.reset.cfg.fieldOrder = .little ∧ 1 ≤ 2 ∧
    exec (.decf f2 2) State.reset = .next { State.reset with results := State.reset.results ++ [.number 0x1234] } := by
  refine ⟨rfl, by omega, ?_⟩
  have h : decodeInRange State.reset.cfg f2 2 = true ∧ decodeField State.reset.cfg f2 2 = 0x1234 := by decide
  simp only [exec, execDecf, h.1, h.2, if_true]; rfl
/-- The first and last code of each range, the last index inside the domain and the first outside. -/
theorem witness_RegWritesOneEntry :
    248 < State.reset.cfg.nApp ∧ State.reset.phase = .setup ∧ 1 ≤ (0x01 : Byte).toNat ∧ (0xF9 : Byte).toNat ≤ 0xF9 ∧
    (0x00 : Byte).toNat = 0 ∧ 0xFA ≤ (0xFA : Byte).toNat ∧ 248 < run.cfg.nApp ∧ run.phase = .run ∧
    State.reset.cfg.nApp ≤ 249 := by decide
theorem witness_LastfRdReadsTheLatch :
    ({ run with lastf := some ⟨.ping, pingRx, true⟩ } : State).lastf = some ⟨.ping, pingRx, true⟩ ∧
    State.reset.lastf = none := by decide
theorem witness_DispatchLatchesLogsAndWakes : run.cfg.minLen ≤ pingRx.length := by decide

theorem reservedEntries_run : ReservedEntries run := fun c _ => dtRead_resetOf Config.default c

theorem witness_NoticeFramesSelectTheirHandler :
    ReservedEntries run ∧ (List.replicate 250 0 : List Byte).length ≤ run.cfg.maxPayload :=
  ⟨reservedEntries_run, by decide +kernel⟩
/-- The registration clause needs `SETUP`. -/
theorem witness_NoticeFramesSelectTheirHandler_setup :
    ReservedEntries State.reset ∧ ([] : List Byte).length ≤ State.reset.cfg.maxPayload ∧
    State.reset.phase = .setup ∧ 0 < State.reset.cfg.nApp :=
  ⟨fun c _ => dtRead_resetOf Config.default c, by decide⟩
theorem witness_PingAndReservedFramesSelectTheirHandler :
    ReservedEntries run ∧ ([] : List Byte).length ≤ run.cfg.maxPayload := ⟨reservedEntries_run, by decide⟩
theorem witness_AppFrameSelectsItsEntry :
    1 ≤ (0x01 : Byte).toNat ∧ (0xF9 : Byte).toNat ≤ 0xF9 ∧ (List.replicate 250 0 : List Byte).length ≤ run.cfg.maxPayload ∧
    State.reset.phase = .setup ∧ 0 < State.reset.cfg.nApp ∧
    exec (.reg 0x01 0) State.reset = .next (giveResult .done (dtWrite 0x01 (.app 0) State.reset)) := by
  refine ⟨by decide +kernel, by decide +kernel, by decide +kernel, rfl, by decide +kernel, rfl⟩
/-- Exactly full, and one byte too many. -/
theorem witness_RxpushAppendsOrOverflows :
    State.reset.phase = .setup ∧ ({ run with cfg := cfgCap } : State).phase = .run ∧
    (∀ cap, cfgCap.rxbufCap = some cap → ([1, 2, 3, 4, 5, 6] : List Byte).length + ([7, 8] : List Byte).length ≤ cap) ∧
    cfgCap.rxbufCap = some 8 ∧ 8 < ([1, 2, 3, 4, 5, 6] : List Byte).length + ([7, 8, 9] : List Byte).length := by
  refine ⟨rfl, rfl, ?_, rfl, by decide⟩
  intro cap h; cases h; decide

/-- A candidate that verifies. -/
def holdingF1 : State := { run with rxbuf := f1, pass := true }

theorem find_holdingF1 : find holdingF1.cfg holdingF1.rxbuf = .candidate 0 8 := by decide

theorem witness_ScanDispatchesAndDrops :
    find holdingF1.cfg holdingF1.rxbuf = .candidate 0 8 ∧ f1 = (holdingF1.rxbuf.drop 0).take 8 ∧
    exec (.dispatch f1 (decide (f1.getLast? = some (ck holdingF1.cfg f1.dropLast)))) holdingF1 =
      .next (takeDispatch f1 true holdingF1) := by
  have h : decide (f1.getLast? = some (ck holdingF1.cfg f1.dropLast)) = true := by decide +kernel
  refine ⟨find_holdingF1, rfl, ?_⟩
  rw [h]; rfl
theorem witness_ScanDispatchesAndDrops_none : ∀ o n, find run.cfg run.rxbuf ≠ .candidate o n := by
  intro o n h; simp [run, State.reset, State.resetOf, find, findFrom] at h
theorem witness_ScanRunsTheDecodedFrame :
    find holdingF1.cfg holdingF1.rxbuf = .candidate 0 8 ∧
    decode holdingF1.cfg (.frame (slice holdingF1.rxbuf 0 8)) = .instr (.app 0 0x10 [1, 2, 3]) := by decide +kernel
theorem witness_ScanRunsTheDecodedFrame_rejected :
    find run.cfg f1Bad = .candidate 0 8 ∧ decode run.cfg (.frame (slice f1Bad 0 8)) = .reject .badChecksum := by
  decide +kernel
theorem witness_IterationMakesProgress :
    exec .scan holdingF1 = .next (giveResult (.scan (find holdingF1.cfg holdingF1.rxbuf)) (scanOnce holdingF1)) := rfl
theorem witness_PassEnds : holdingF1.pass = true ∧ holdingF1.rxbuf ≠ [] := by decide

/-- The invariant holds of a state in `RUN` that holds back an unfinished frame. -/
theorem inv_holding (b : List Byte) (h : ∀ o n, find Config.default b ≠ .candidate o n) : Inv { run with rxbuf := b } where
  withinCap := by rw [Memory.wf_iff]; intro n hn; cases hn
  reserved := fun c _ => dtRead_resetOf Config.default c
  application := fun c hc => .inl ((dtRead_resetOf Config.default c).trans (resetHandler_wrong c hc))
  setupQuiet := fun hp => by cases hp
  passDone := fun _ => h
  latchIsLast := rfl
  dispatches := fun d hd => by cases hd
  sent := fun f hf => by cases hf
  overflowFinite := fun hf => by cases hf

theorem no_candidate_in_head : ∀ o n, find Config.default [0xAA, 0x55, 0x08, 0x10, 0x01] ≠ .candidate o n := by
  intro o n h
  have e : find Config.default [0xAA, 0x55, 0x08, 0x10, 0x01] = .hold 0 8 := by decide
  rw [e] at h; cases h

def holdingHead : State := { run with rxbuf := [0xAA, 0x55, 0x08, 0x10, 0x01] }

theorem witness_EmptyPushChangesNothing :
    holdingHead.phase = .run ∧ Inv holdingHead ∧ holdingHead.pass = false :=
  ⟨rfl, inv_holding _ no_candidate_in_head, rfl⟩

theorem valid_f1 : ValidFrame run.cfg run.cfg.markDec f1 := by unfold ValidFrame Framed; decide +kernel

theorem witness_GarbagePrefixIsRecovered :
    run.phase = .run ∧ run.pass = false ∧ run.rxbuf = [] ∧
    (∀ cap, run.cfg.rxbufCap = some cap → ([0x00, 0xFF, 0xAA, 0x13] : List Byte).length + f1.length ≤ cap) ∧
    ValidFrame run.cfg run.cfg.markDec f1 ∧
    (∀ o, o < ([0x00, 0xFF, 0xAA, 0x13] : List Byte).length →
      ¬ (([0x00, 0xFF, 0xAA, 0x13] ++ f1).getD o 0 = run.cfg.markDec.1 ∧
        ([0x00, 0xFF, 0xAA, 0x13] ++ f1).getD (o + 1) 0 = run.cfg.markDec.2)) :=
  ⟨rfl, rfl, rfl, fun _ h => (by cases h), valid_f1, by decide⟩
/-- Cut inside the header, and after the last byte. -/
theorem witness_SplitFrameIsReassembled :
    run.phase = .run ∧ run.pass = false ∧ run.rxbuf = [] ∧ run.cfg.incompletePolicy = .hold ∧
    (∀ cap, run.cfg.rxbufCap = some cap → ([0xAA, 0x55] : List Byte).length + (f1.drop 2).length ≤ cap) ∧
    ValidFrame run.cfg run.cfg.markDec ([0xAA, 0x55] ++ f1.drop 2) ∧
    ValidFrame run.cfg run.cfg.markDec (f1 ++ []) :=
  ⟨rfl, rfl, rfl, rfl, fun _ h => (by cases h), valid_f1, valid_f1⟩
theorem witness_ChunkingDoesNotMatter :
    holdingHead.phase = .run ∧ holdingHead.cfg.incompletePolicy = .hold ∧
    (∀ cap, holdingHead.cfg.rxbufCap = some cap →
      holdingHead.rxbuf.length + ([0x02] : List Byte).length + ([0x03, 0xC3] : List Byte).length ≤ cap) :=
  ⟨rfl, rfl, fun _ h => by cases h⟩
theorem witness_FailedChecksumIsReportedOnce :
    run.phase = .run ∧ run.pass = false ∧ run.rxbuf = [] ∧
    (∀ cap, run.cfg.rxbufCap = some cap → f1Bad.length ≤ cap) ∧
    Framed run.cfg run.cfg.markDec f1Bad ∧ f1Bad.getLast? ≠ some (ck run.cfg f1Bad.dropLast) :=
  ⟨rfl, rfl, rfl, fun _ h => (by cases h), by unfold Framed; decide +kernel, by decide +kernel⟩
/-- The first byte that may be damaged (the command byte) and the last (the checksum byte). -/
theorem witness_FlippedBitIsReportedOnce :
    run.phase = .run ∧ run.pass = false ∧ run.rxbuf = [] ∧
    (∀ cap, run.cfg.rxbufCap = some cap → 3 + 4 + 1 ≤ cap) ∧
    ValidFrame run.cfg run.cfg.markDec ([0xAA, 0x55, 0x08] ++ [0x10] ++ [0x01, 0x02, 0x03, 0xC3]) ∧
    3 ≤ ([0xAA, 0x55, 0x08] : List Byte).length ∧
    ValidFrame run.cfg run.cfg.markDec ([0xAA, 0x55, 0x08, 0x10, 0x01, 0x02, 0x03] ++ [0xC3] ++ []) :=
  ⟨rfl, rfl, rfl, fun _ h => (by cases h), valid_f1, by decide, valid_f1⟩
/-- Two dead offsets, one by its own byte and one by the byte after it; then an empty push. -/
theorem witness_DeadPrefixDoesNotMatter :
    ∃ u, ({ run with rxbuf := [0x09, 0xAA, 0x00] } : State).phase = .run ∧ 2 ≤ ([0x09, 0xAA, 0x00] : List Byte).length ∧
      (∀ o, o < 2 → Dead run.cfg [0x09, 0xAA, 0x00] o) ∧
      pushAll [[]] { run with rxbuf := [0x09, 0xAA, 0x00] } = .next u ∧ u.flt.rxovf = false := by
  refine ⟨_, rfl, by decide, ?_, rfl, by decide⟩
  intro o ho
  match o, ho with
  | 0, _ => exact .inl ⟨0x09, rfl, by decide⟩
  | 1, _ => exact .inr (.inl ⟨0x00, rfl, by decide⟩)
theorem witness_LiveHeadBoundsTheBuffer :
    Inv holdingHead ∧ holdingHead.pass = false ∧ ¬ Dead holdingHead.cfg holdingHead.rxbuf 0 := by
  refine ⟨inv_holding _ no_candidate_in_head, rfl, ?_⟩
  rintro (⟨x, e, h⟩ | ⟨x, e, h⟩ | ⟨x, e, h⟩) <;> cases e <;> revert h <;> decide
theorem witness_WakeAcqTakesAtMostOne :
    ({ run with wakeCnt := 1 } : State).wakeCnt = 0 + 1 ∧ State.reset.wakeCnt = 0 := by decide

/-- A request alone. -/
def asking (opsel : BitVec 4) : State := { run with cmdPort := [⟨opsel, Operands.none⟩] }

theorem witness_StepRunsTheRequest :
    (asking 0xB).cmdPort = [⟨0xB, Operands.none⟩] ∧ readyAgents (asking 0xB) = [.caller] ∧
    (0xB : BitVec 4).toNat ∉ [0xC, 0xD, 0xE] := by decide
theorem witness_StepRunsTheIoContext :
    readyAgents holdingF1 = [.io] ∧ holdingF1.pass = true ∧
    readyAgents { run with rxPort := [[0xAA]] } = [.io] ∧ run.pass = false ∧
    readyAgents (asking 0xC) = [.caller] ∧ (0xC : BitVec 4).toNat ∈ [0xC, 0xD, 0xE] ∧
    (0xE : BitVec 4).toNat ∈ [0xC, 0xD, 0xE] := by decide
theorem witness_StepServesTheOutsideLines :
    readyAgents { run with rstPin := true } = [.resetInput] ∧ readyAgents { run with closeReq := true } = [.channelClose] ∧
    readyAgents run = [] := by decide
/-- An open pass; two chunks waiting, the first of them a whole frame. -/
theorem witness_StepsOfAPushAreThePush :
    holdingF1.cmdPort = [] ∧ holdingF1.rstPin = false ∧ holdingF1.closeReq = false ∧ holdingF1.pass = true ∧
    (∃ chunk rest, ({ run with rxPort := [f1, [0xAA]] } : State).rxPort = chunk :: rest) ∧
    run.cmdPort = [] ∧ run.rstPin = false ∧ run.closeReq = false ∧ run.pass = false :=
  ⟨rfl, rfl, rfl, rfl, ⟨_, _, rfl⟩, rfl, rfl, rfl, rfl⟩
/-- A read of the latch inside a pass; a transmission outside one; a chunk, the reset input and the close, all waiting
together with a request. -/
def busy : State :=
  { run with cmdPort := [⟨0x2, { Operands.none with flag := true }⟩], rxPort := [[0xAA]], rstPin := true, closeReq := true }

theorem witness_AnyReadyAgentMayMove :
    (∃ r rest, ({ asking 0x8 with pass := true } : State).cmdPort = r :: rest ∧ r.opsel.toNat ∉ [0xC, 0xD, 0xE] ∧
      decodeRequest r ≠ .rst ∧ ¬ (r.opsel.toNat ∈ [0x2, 0x3] ∧ r.args.flag = true)) ∧
    (∃ r rest, busy.cmdPort = r :: rest ∧ r.opsel.toNat ∉ [0xC, 0xD, 0xE]) ∧
    (∃ chunk rest, busy.rxPort = chunk :: rest) ∧ busy.pass = false ∧ busy.rstPin = true ∧ busy.closeReq = true ∧
    holdingF1.pass = true :=
  ⟨⟨_, _, rfl, by decide⟩, ⟨_, _, rfl, by decide⟩, ⟨_, _, rfl⟩, rfl, rfl, rfl, rfl⟩
/-- Inside a pass: an iteration, and a caller's step that falls between two. -/
theorem witness_PassIsACriticalSection :
    holdingF1.phase = .run ∧ holdingF1.pass = true ∧
    step holdingF1 = .next (giveResult (.scan (find holdingF1.cfg holdingF1.rxbuf)) (scanOnce holdingF1)) := ⟨rfl, rfl, rfl⟩
/-- For the invariant and for every statement about a step that answers a next state. -/
theorem witness_StepKeepsTheInvariant :
    Inv holdingHead ∧ step holdingHead = .next holdingHead := ⟨inv_holding _ no_candidate_in_head, rfl⟩
theorem witness_BuildParametersNeverChange : ∃ t, step (asking 0xB) = .next t := ⟨_, rfl⟩
/-- A step that takes an `RST` request from the port serves a reset, and so does one that serves the reset input. -/
theorem resetServed_request (s : State) (hp : s.pass = false) :
    ResetServed { s with cmdPort := [⟨0xB, Operands.none⟩] } (giveResult .done (resetBlock { s with cmdPort := [] })) :=
  ⟨hp, .inl ⟨_, [], rfl, rfl, rfl⟩⟩
theorem resetServed_input (s : State) (hp : s.pass = false) :
    ResetServed { s with rstPin := true } (giveResult .done (resetBlock { s with rstPin := false })) :=
  ⟨hp, .inr ⟨rfl, rfl⟩⟩

/-- `RUN`: a step that stays in it, and the two that leave it. -/
theorem witness_TableIsFixedWhileRunning :
    run.phase = .run ∧ (∃ t, step (asking 0x8) = .next t ∧ t.phase = .run) ∧
    (∃ t, step (asking 0xB) = .next t ∧ ResetServed (asking 0xB) t ∧ t.phase = .setup) ∧
    ∃ t, step { run with rstPin := true } = .next t ∧ ResetServed { run with rstPin := true } t ∧ t.phase = .setup :=
  ⟨rfl, ⟨_, rfl, rfl⟩, ⟨_, rfl, resetServed_request run rfl, rfl⟩, ⟨_, rfl, resetServed_input run rfl, rfl⟩⟩

/-- `SETUP`, the highest application code: waiting to be registered, and registered with a reset waiting. -/
def registering : State := { State.reset with cmdPort := [⟨0x6, { Operands.none with code := 0xF9 }⟩] }
def registered : State := dtWrite 0xF9 (.app 0) State.reset

theorem inv_registering : Inv registering where
  withinCap := rfl
  reserved := fun c _ => dtRead_resetOf Config.default c
  application := fun c hc => .inl ((dtRead_resetOf Config.default c).trans (resetHandler_wrong c hc))
  setupQuiet := fun _ => ⟨rfl, rfl, rfl, rfl, rfl⟩
  passDone := fun _ => witness_ScanDispatchesAndDrops_none
  latchIsLast := rfl
  dispatches := fun _ hd => by cases hd
  sent := fun _ hf => by cases hf
  overflowFinite := fun hf => by cases hf

theorem dtRead_registered (c : Byte) : dtRead registered c = if c = 0xF9 then .app 0 else resetHandler c :=
  (dtRead_dtWrite 0xF9 c (.app 0) State.reset).trans (by rw [show dtRead State.reset c = _ from dtRead_resetOf _ c])

theorem inv_registered_pin : Inv { registered with rstPin := true } where
  withinCap := rfl
  reserved := fun c hc => (dtRead_registered c).trans (if_neg fun e => by subst e; revert hc; decide)
  application := fun c hc => by
    have h := dtRead_registered c
    split at h
    · exact .inr ⟨0, by decide, h⟩
    · exact .inl (h.trans (resetHandler_wrong c hc))
  setupQuiet := fun _ => ⟨rfl, rfl, rfl, rfl, rfl⟩
  passDone := fun _ => witness_ScanDispatchesAndDrops_none
  latchIsLast := rfl
  dispatches := fun _ hd => by cases hd
  sent := fun _ hf => by cases hf
  overflowFinite := fun hf => by cases hf

theorem witness_TableIsWrittenOnlyByRegistration :
    Inv registering ∧ ∃ t, step registering = .next t ∧ dtRead t 0xF9 ≠ dtRead registering 0xF9 :=
  ⟨inv_registering, _, rfl, by decide +kernel⟩
theorem witness_TableIsWrittenOnlyByRegistration_reset :
    Inv { registered with rstPin := true } ∧
    ∃ t, step { registered with rstPin := true } = .next t ∧ ResetServed { registered with rstPin := true } t ∧
      dtRead t 0xF9 ≠ dtRead { registered with rstPin := true } 0xF9 :=
  ⟨inv_registered_pin, _, rfl, resetServed_input registered rfl, by decide +kernel⟩
/-- A dispatch, a drain, an acquire, a close, and a reset by the request and by the input with a wake to lose. -/
theorem witness_EveryDispatchWakesOnce :
    (∃ t, step holdingF1 = .next t ∧ t.wakeCnt = 1) ∧
    (∃ t, step { asking 0xA with wakeCnt := 2 } = .next t ∧ t.wakeCnt = 0) ∧
    (∃ t, step { asking 0x9 with wakeCnt := 2 } = .next t ∧ t.wakeCnt = 1) ∧
    (∃ t, step { run with closeReq := true } = .next t ∧ t.wakeCnt = 1) ∧
    (∃ t, step { asking 0xB with wakeCnt := 2 } = .next t ∧ ResetServed { asking 0xB with wakeCnt := 2 } t ∧
      t.wakeCnt = 0) ∧
    ∃ t, step { run with wakeCnt := 2, rstPin := true } = .next t ∧
      ResetServed { run with wakeCnt := 2, rstPin := true } t ∧ t.wakeCnt = 0 :=
  ⟨⟨_, rfl, by decide⟩, ⟨_, rfl, rfl⟩, ⟨_, rfl, rfl⟩, ⟨_, rfl, rfl⟩,
    ⟨_, rfl, resetServed_request { run with wakeCnt := 2 } rfl, rfl⟩,
    ⟨_, rfl, resetServed_input { run with wakeCnt := 2 } rfl, rfl⟩⟩
theorem witness_BufferChangesInThreeWays :
    (∃ t, step { run with rxPort := [[0xAA]] } = .next t ∧ t.rxbuf = [0xAA]) ∧
    (∃ t, step holdingF1 = .next t ∧ t.rxbuf = []) ∧
    ∃ t, step { holdingHead with rstPin := true } = .next t ∧ ResetServed { holdingHead with rstPin := true } t ∧
      holdingHead.rxbuf ≠ [] ∧ t.rxbuf = [] :=
  ⟨⟨_, rfl, rfl⟩, ⟨_, rfl, by decide⟩, ⟨_, rfl, resetServed_input holdingHead rfl, by decide, rfl⟩⟩
/-- A transmission, and a reset with one already made. -/
theorem witness_TransmissionsKeepIssueOrder :
    (∃ t, step { run with cmdPort := [⟨0x2, { Operands.none with flag := true }⟩] } = .next t ∧ t.txout.length = 1) ∧
    ∃ t, step { asking 0xB with txout := [pingRx] } = .next t ∧ ResetServed { asking 0xB with txout := [pingRx] } t ∧
      t.txout = [] :=
  ⟨⟨_, rfl, by decide⟩, ⟨_, rfl, resetServed_request { run with txout := [pingRx] } rfl, rfl⟩⟩
/-- One state for each cause of a refusal. -/
theorem witness_StepIsRefusedOnlyForCause :
    step { State.reset with rxPort := [[0xAA]] } = .refused .notRunning ∧ step (asking 0x1) = .refused .badOperand ∧
    step (asking 0xF) = .refused .badOp ∧ step (asking 0xD) = .refused .wrongPort := ⟨rfl, rfl, rfl, rfl⟩
theorem witness_DecodeUndoesEncode :
    WellFormed Config.default (.app 0 0xF9 (List.replicate 250 0xFF)) = true ∧ WellFormed cfgA (.ping 0xFF []) = true ∧
    WellFormed Config.default (.encf 0xFF 0xFF [⟨1, 255⟩] true) = true := by decide +kernel
theorem witness_FrameDecoderAcceptsExactlyValidFrames :
    decodeFrame Config.default f1 = .instr (.app 0 0x10 [1, 2, 3]) ∧ decodeFrame Config.default f1Bad = .reject .badChecksum := by
  decide +kernel

end Sys2Proof.Tests
end

section
/-! The statements of 30_encoding.md. -/

namespace Sys2Proof.Machine

/-- Settles O40: the arm of the reserved select answers R96's refusal without reading the state. -/
theorem reservedSelectIsRefused : Obligations.ReservedSelectIsRefused := fun _ => rfl

end Sys2Proof.Machine
end

section
/-! The checksum laws and the encoder laws that the statements of 40_codec.md rest on. -/

namespace Sys2Proof

/-! ### Checksum -/

/-- A shift takes only 0 to 0: the low bit of the polynomial is set, so a value it reduced is not 0. -/
theorem crcShift_eq_zero_iff : ∀ c : Byte, crcShift c = 0 ↔ c = 0 := by decide

theorem crcShifts_eq_zero_iff (n : Nat) (c : Byte) : crcShifts n c = 0 ↔ c = 0 := by
  induction n generalizing c with
  | zero => rfl
  | succ n ih => rw [crcShifts, ih, crcShift_eq_zero_iff]

theorem crcByte_eq_zero_iff (c b : Byte) : crcByte c b = 0 ↔ b = c := by
  rw [crcByte, crcShifts_eq_zero_iff, eq_comm (a := b)]; exact BitVec.xor_eq_zero_iff

/-- R115 (a): appending a byte brings the CRC to 0 exactly when that byte is the CRC of what stands before it. -/
theorem crc8_append_byte_eq_zero_iff (g : List Byte) (b : Byte) : crc8 (g ++ [b]) = 0 ↔ b = crc8 g := by
  rw [crc8_append]; exact crcByte_eq_zero_iff (crc8 g) b

theorem ck_of_crc8 (c : Config) (s : List Byte) (h : c.ckKind = .crc8) : ck c s = crc8 s := by rw [ck, h]

theorem ck_of_xor8 (c : Config) (s : List Byte) (h : c.ckKind = .xor8) : ck c s = xor8 s := by rw [ck, h]

theorem ck_nil (c : Config) : ck c [] = 0 := by unfold ck; cases c.ckKind <;> rfl

theorem xor8_perm (a b : List Byte) (h : a.Perm b) : xor8 a = xor8 b :=
  haveI : RightCommutative (fun c b : Byte => c ^^^ b) := ⟨fun x y z => by
    rw [BitVec.xor_assoc, BitVec.xor_comm y, ← BitVec.xor_assoc]⟩
  h.foldl_eq 0

/-! ### The built frame -/

theorem Config.maxPayload_eq_sub (c : Config) : c.maxPayload = 250 - (if c.hasAddr then 1 else 0) := by
  rw [c.maxPayload_eq]
  obtain ⟨ha, hh⟩ | ⟨ha, hh⟩ := c.hdr_cases <;> simp [ha, hh]

/-- R80, R81: the bytes before the checksum, one layout for each variant. -/
theorem frameBody_eq_layout (c : Config) (m : Byte × Byte) (a cmd : Byte) (p : List Byte) (n : Nat)
    (hn : n = p.length + (if c.hasAddr then 6 else 5)) :
    frameBody c m a cmd p =
      if c.hasAddr then [m.1, m.2, BitVec.ofNat 8 n, a, cmd] ++ p else [m.1, m.2, BitVec.ofNat 8 n, cmd] ++ p := by
  have hlen : c.hdr + p.length + 1 = n := by
    obtain ⟨ha, hh⟩ | ⟨ha, hh⟩ := c.hdr_cases <;> simp only [ha, if_true, Bool.false_eq_true, if_false] at hn <;> omega
  rw [frameBody, hlen]
  cases c.hasAddr <;> rfl

theorem validFrame_buildFrame (c : Config) (m : Byte × Byte) (a cmd : Byte) (p : List Byte)
    (h : p.length ≤ c.maxPayload) : Machine.ValidFrame c m (buildFrame c m a cmd p) :=
  ⟨framed_buildFrame c m a cmd p h, (verifies_iff c _).1 (verifies_buildFrame c m a cmd p)⟩

namespace Machine

/-! ### The codec's operations -/

theorem exec_cksum (b : List Byte) (s : State) : exec (.cksum b) s = .next (giveResult (.byte (ck s.cfg b)) s) := rfl

theorem exec_verify_append (g : List Byte) (b : Byte) (s : State) :
    exec (.verify (g ++ [b])) s = .next (giveResult (.bit (decide (b = ck s.cfg g))) s) := by
  have hne : (g ++ [b]).isEmpty = false := by simp
  change execVerify (g ++ [b]) s = _
  rw [execVerify, hne, verifies_append]; rfl

theorem exec_verify_nil (s : State) : exec (.verify []) s = .refused .badOperand := rfl

theorem giveResult_emitTx (r : Result) (send : Bool) (f : List Byte) (s : State) :
    giveResult r (emitTx send f s) =
      { s with txout := (if send then s.txout ++ [f] else s.txout), results := s.results ++ [r] } := by
  cases send <;> rfl

theorem exec_enc_of_fits (cmd addr : Byte) (p : List Byte) (send : Bool) (s : State)
    (h : p.length ≤ s.cfg.maxPayload) :
    exec (.enc cmd addr p send) s =
      .next (giveResult (.frame (buildFrame s.cfg s.cfg.markEnc addr cmd p))
        (emitTx send (buildFrame s.cfg s.cfg.markEnc addr cmd p) s)) :=
  congrArg Host.Outcome.next (if_pos h)

theorem exec_enc_of_too_long (cmd addr : Byte) (p : List Byte) (send : Bool) (s : State)
    (h : s.cfg.maxPayload < p.length) :
    exec (.enc cmd addr p send) s = .next (raise (.encodingError p.length) s) :=
  congrArg Host.Outcome.next (if_neg (Nat.not_le.2 h))

end Machine

end Sys2Proof
end

section
/-! The statements of 40_codec.md. -/

namespace Sys2Proof.Machine

/-- Settles O8: the layout spelled out is the built frame, which R88 accepts; the bound is `MAX_PAYLOAD` in each variant. -/
theorem encBuildsTheFrame : Obligations.EncBuildsTheFrame := by
  unfold Obligations.EncBuildsTheFrame
  intro cmd addr payload send s
  rw [← s.cfg.maxPayload_eq_sub]
  refine ⟨fun hfits n body f hn hbody hf => ?_, fun hlong => exec_enc_of_too_long cmd addr payload send s hlong⟩
  have hframe : f = buildFrame s.cfg s.cfg.markEnc addr cmd payload := by
    rw [hf, hbody, buildFrame, frameBody_eq_layout s.cfg s.cfg.markEnc addr cmd payload n hn]
  rw [hframe]
  exact ⟨validFrame_buildFrame _ _ _ _ _ hfits,
    by rw [exec_enc_of_fits cmd addr payload send s hfits, giveResult_emitTx]⟩

/-- Settles O1: the two values and the order's effect on CRC-8 are computed; the exclusive or is right-commutative. -/
theorem cksumGivesTheChecksum : Obligations.CksumGivesTheChecksum := by
  unfold Obligations.CksumGivesTheChecksum
  refine ⟨fun b s => ⟨fun h => ?_, fun h => ?_⟩, rfl, rfl, by decide, by decide, ?_, xor8_perm⟩
  · rw [exec_cksum, ck_of_crc8 s.cfg b h]; rfl
  · rw [exec_cksum, ck_of_xor8 s.cfg b h]; rfl
  · exact ⟨[0x00, 0x01], [0x01, 0x00], List.Perm.swap _ _ _, by decide⟩

/-- Settles O7: the CRC-8 form is R115 (a), and the one byte 0 is the checksum of the empty sequence before it. -/
theorem verifyTestsTheTrailingByte : Obligations.VerifyTestsTheTrailingByte := by
  unfold Obligations.VerifyTestsTheTrailingByte
  intro g b s
  refine ⟨exec_verify_append g b s, fun h => ?_, ?_, exec_verify_nil s⟩
  · rw [exec_verify_append, ck_of_crc8 s.cfg g h, decide_eq_decide.2 (crc8_append_byte_eq_zero_iff g b)]; rfl
  · rw [← List.nil_append [0x00], exec_verify_append, ck_nil]; rfl

end Sys2Proof.Machine
end

section
/-! The received frame and the registration of a reserved code, which the statements of 42_dispatch.md rest on. -/

namespace Sys2Proof.Machine

/-- R173: a received frame selects the entry of the command byte it was built with. -/
theorem selectHandler_rxFrame (s : State) (a c : Byte) (p : List Byte) :
    selectHandler s (rxFrame s.cfg a c p) true = dtRead s c := by
  rw [selectHandler, if_pos rfl, rxFrame, frameCommand_buildFrame]

/-- R173, R180 to R187: the three effects of a received frame, its handler read from the table. -/
theorem receive_of_fits (s : State) (a c : Byte) (p : List Byte) (hfits : p.length ≤ s.cfg.maxPayload) (d : Dispatched)
    (hd : d = ⟨dtRead s c, rxFrame s.cfg a c p, true⟩) :
    receive a c p s = .next { s with lastf := some d, displog := s.displog ++ [d], wakeCnt := s.wakeCnt + 1 } := by
  rw [hd, ← selectHandler_rxFrame s a c p, receive, if_pos hfits]
  rfl

/-- R171: `REG` of a reserved code writes no entry: with an index in its domain it raises the error of the phase. -/
theorem exec_reg_of_reserved (c : Byte) (k : Nat) (s : State) (hc : isReservedCode c = true) :
    exec (.reg c k) s =
      if s.cfg.nApp ≤ k then .refused .badOperand
      else .next (raise (if s.phase = .run then .registrationLocked c else .registrationReserved c) s) := by
  change execReg c k s = _
  rw [execReg, if_pos hc]
  cases s.phase <;> rfl

theorem exec_reg_of_reserved_setup (c : Byte) (k : Nat) (s : State) (hc : isReservedCode c = true)
    (hsetup : s.phase = .setup) (hk : k < s.cfg.nApp) :
    exec (.reg c k) s = .next (raise (.registrationReserved c) s) := by
  rw [exec_reg_of_reserved c k s hc, if_neg (Nat.not_le.2 hk), hsetup]
  rfl

theorem exec_reg_of_reserved_dt (c : Byte) (k : Nat) (s t : State) (hc : isReservedCode c = true)
    (h : exec (.reg c k) s = .next t) : t.dt = s.dt := by
  rw [exec_reg_of_reserved c k s hc] at h
  split at h <;> cases h
  rw [raise_dt]

end Sys2Proof.Machine
end

section
/-! The statements of 42_dispatch.md. -/

namespace Sys2Proof.Machine

/-- Settles O19: each of the four classes receives under a reserved code, whose entry the premise fixes. -/
theorem noticeFramesSelectTheirHandler : Obligations.NoticeFramesSelectTheirHandler := by
  unfold Obligations.NoticeFramesSelectTheirHandler
  intro a p s hentries hfits i c h hmem
  have hclass : isReservedCode c = true ∧ resetHandler c = h ∧ exec i s = receive a c p s := by
    simp only [List.mem_cons, Prod.mk.injEq, List.not_mem_nil, or_false] at hmem
    obtain ⟨rfl, rfl, rfl⟩ | ⟨rfl, rfl, rfl⟩ | ⟨rfl, rfl, rfl⟩ | ⟨rfl, rfl, rfl⟩ := hmem <;>
      exact ⟨by decide, by decide, rfl⟩
  obtain ⟨hreserved, hhandler, hexec⟩ := hclass
  have hentry : dtRead s c = h := (hentries c hreserved).trans hhandler
  refine ⟨fun d hd => ?_, fun k hsetup hk => exec_reg_of_reserved_setup c k s hreserved hsetup hk,
    fun k t ht => exec_reg_of_reserved_dt c k s t hreserved ht⟩
  rw [hexec]
  exact receive_of_fits s a c p hfits d (by rw [hd, hentry])

end Sys2Proof.Machine
end

section
/-! The statements of 60_exceptions.md. -/

namespace Sys2Proof.Machine

/-- R207: `WAKE_DRAIN` gives the count as its result over the state with no wake pending. -/
theorem exec_wakeDrain (s : State) :
    exec .wakeDrain s = .next (giveResult (.count s.wakeCnt) { s with wakeCnt := 0 }) := rfl

/-- Settles O37: the result is appended to the log, which clearing the count has not touched. -/
theorem wakeDrainEmptiesTheCount : Obligations.WakeDrainEmptiesTheCount := by
  unfold Obligations.WakeDrainEmptiesTheCount
  intro s
  rw [exec_wakeDrain, giveResult]

end Sys2Proof.Machine
end

section
/-! What one step leaves behind, as one flat list of effects: `step_cases`, `command_cases`, `rxpush_cases` and
`scanOnce_cases` joined, so that a claim about every step is one case split over `Effect`. -/

namespace Sys2Proof.Machine

/-- The request lanes that select a transmission. -/
theorem decodeRequest_encode_send (r : Request) (cmd addr : Byte) (p : List Byte) (fs : List Field)
    (h : decodeRequest r = .enc cmd addr p true ∨ decodeRequest r = .encf cmd addr fs true) :
    r.args.flag = true ∧ (r.opsel = 0x2 ∨ r.opsel = 0x3) := by
  obtain ⟨⟨n⟩, args⟩ := r
  fin_cases n <;> simp_all [decodeRequest]

/-- The state that the caller's operation runs on: the choice of the agent made, its request off the command port. -/
def takeRequest (q : List Agent) (g : Nat) (rest : List Request) (s : State) : State :=
  { choose q g s with cmdPort := rest }

/-- The state that `RXPUSH` runs on: the choice of the agent made, its chunk off the rx port. -/
def takeChunk (q : List Agent) (g : Nat) (rest : List (List Byte)) (s : State) : State :=
  { choose q g s with rxPort := rest }

/-- What a step from `s` can leave. -/
inductive Effect (s : State) : State → Prop
  /-- R35: nobody is ready. -/
  | waited : Effect s s
  /-- An operation of the caller that writes nothing of the block. -/
  | answered (q : List Agent) (g : Nat) (r : Request) (rest : List Request) (res : Result)
      (hport : s.cmdPort = r :: rest) : Effect s (giveResult res (takeRequest q g rest s))
  /-- R116, R63: an encode of the caller with `send` set, outside a pass. -/
  | transmitted (q : List Agent) (g : Nat) (r : Request) (rest : List Request) (f : List Byte)
      (hport : s.cmdPort = r :: rest) (hpass : s.pass = false) (hflag : r.args.flag = true)
      (hsel : r.opsel = 0x2 ∨ r.opsel = 0x3) (hvalid : ValidFrame s.cfg s.cfg.markEnc f) :
      Effect s (giveResult (.frame f) (emitTx true f (takeRequest q g rest s)))
  /-- R171: `REG` of an application code in `SETUP`. -/
  | registered (q : List Agent) (g : Nat) (r : Request) (rest : List Request) (c : Byte) (k : Nat)
      (hport : s.cmdPort = r :: rest) (hreg : decodeRequest r = .reg c k) (hphase : s.phase = .setup)
      (hindex : k < s.cfg.nApp) (happ : isReservedCode c = false) :
      Effect s (giveResult .done (dtWrite c (.app k) (takeRequest q g rest s)))
  /-- R172. -/
  | locked (q : List Agent) (g : Nat) (r : Request) (rest : List Request) (hport : s.cmdPort = r :: rest) :
      Effect s (giveResult .done { takeRequest q g rest s with phase := .run })
  /-- R206. -/
  | acquired (q : List Agent) (g : Nat) (r : Request) (rest : List Request) (n : Nat)
      (hport : s.cmdPort = r :: rest) (hacq : decodeRequest r = .wakeAcq) (hcount : s.wakeCnt = n + 1) :
      Effect s (giveResult (.bit true) { takeRequest q g rest s with wakeCnt := n })
  /-- R207. -/
  | drained (q : List Agent) (g : Nat) (r : Request) (rest : List Request)
      (hport : s.cmdPort = r :: rest) (hdrain : decodeRequest r = .wakeDrain) :
      Effect s (giveResult (.count s.wakeCnt) { takeRequest q g rest s with wakeCnt := 0 })
  /-- R241: the `RST` request, outside a pass. -/
  | resetByRequest (q : List Agent) (g : Nat) (r : Request) (rest : List Request)
      (hport : s.cmdPort = r :: rest) (hrst : decodeRequest r = .rst) (hpass : s.pass = false) :
      Effect s (giveResult .done (resetBlock (takeRequest q g rest s)))
  /-- R144: an iteration that dispatches the frame it found. -/
  | dispatched (q : List Agent) (g o n : Nat) (hpass : s.pass = true) (hfind : find s.cfg s.rxbuf = .candidate o n) :
      Effect s (giveResult (.scan (.candidate o n))
        (dropPrefix (o + n)
          (takeDispatch (slice s.rxbuf o n) (verifies s.cfg (slice s.rxbuf o n)) (choose q g s))))
  /-- R145: the iteration that ends the pass. -/
  | passEnded (q : List Agent) (g : Nat) (hpass : s.pass = true) (hnone : ∀ o n, find s.cfg s.rxbuf ≠ .candidate o n) :
      Effect s (giveResult (.scan (find s.cfg s.rxbuf)) (endPass (choose q g s)))
  /-- R140. -/
  | appended (q : List Agent) (g : Nat) (chunk : List Byte) (rest : List (List Byte))
      (hport : s.rxPort = chunk :: rest) (hpass : s.pass = false) (hphase : s.phase = .run)
      (hroom : roomFor s chunk = true) : Effect s (giveResult .done (appendChunk chunk (takeChunk q g rest s)))
  /-- R141. -/
  | overflowed (q : List Agent) (g : Nat) (chunk : List Byte) (rest : List (List Byte))
      (hport : s.rxPort = chunk :: rest) (hpass : s.pass = false) (hphase : s.phase = .run)
      (hroom : roomFor s chunk = false) : Effect s (rxOverflow (takeChunk q g rest s))
  /-- R240: the reset input, outside a pass. -/
  | resetByLine (q : List Agent) (g : Nat) (hline : s.rstPin = true) (hpass : s.pass = false) :
      Effect s (giveResult .done (resetBlock { choose q g s with rstPin := false }))
  /-- R219: the release at close, outside a pass. -/
  | closed (q : List Agent) (g : Nat) (hline : s.closeReq = true) (hpass : s.pass = false) :
      Effect s (wakeRelease { choose q g s with closeReq := false })

/-- What the caller's oldest request can do. -/
theorem effect_of_request (q : List Agent) (g : Nat) (r : Request) (rest : List Request) (s t : State)
    (hport : s.cmdPort = r :: rest) (hcmd : onCommandPort (decodeRequest r) = true)
    (hlock : s.pass = true → waitsForPass (decodeRequest r) = false)
    (h : exec (decodeRequest r) (takeRequest q g rest s) = .next t) : Effect s t := by
  have outside : waitsForPass (decodeRequest r) = true → s.pass = false := by
    intro hw
    cases hp : s.pass
    · rfl
    · rw [hlock hp] at hw; cases hw
  obtain ⟨res, rfl⟩ | ⟨hw, cmd, addr, p, hlen, hi, rfl⟩ | ⟨c, k, hi, hphase, hk, happ, rfl⟩ | rfl | ⟨hi, n, hn, rfl⟩ |
    ⟨hi, rfl⟩ | ⟨hi, rfl⟩ := command_cases _ _ _ hcmd h
  · exact .answered q g r rest res hport
  · obtain ⟨hflag, hsel⟩ : r.args.flag = true ∧ (r.opsel = 0x2 ∨ r.opsel = 0x3) := by
      obtain hi | ⟨fs, hi⟩ := hi
      · exact decodeRequest_encode_send r cmd addr p [] (.inl hi)
      · exact decodeRequest_encode_send r cmd addr p fs (.inr hi)
    exact .transmitted q g r rest _ hport (outside hw) hflag hsel (validFrame_buildFrame _ _ _ _ _ hlen)
  · exact .registered q g r rest c k hport hi hphase hk happ
  · exact .locked q g r rest hport
  · exact .acquired q g r rest n hport hi hn
  · exact .drained q g r rest hport hi
  · exact .resetByRequest q g r rest hport hi (outside (by rw [hi]; rfl))

/-- What an iteration of the open pass can do. -/
theorem effect_of_iteration (q : List Agent) (g : Nat) (s : State) (hpass : s.pass = true) :
    Effect s (giveResult (.scan (find s.cfg s.rxbuf)) (scanOnce (choose q g s))) := by
  obtain ⟨o, n, hfind, -, -, hscan⟩ | ⟨hnone, hscan⟩ := scanOnce_cases (choose q g s) <;> rw [hscan]
  · rw [show find s.cfg s.rxbuf = _ from hfind]
    exact .dispatched q g o n hpass hfind
  · exact .passEnded q g hpass hnone

/-- What taking the oldest chunk can do. -/
theorem effect_of_chunk (q : List Agent) (g : Nat) (chunk : List Byte) (rest : List (List Byte)) (s t : State)
    (hport : s.rxPort = chunk :: rest) (hpass : s.pass = false)
    (h : exec (.rxpush chunk) (takeChunk q g rest s) = .next t) : Effect s t := by
  obtain ⟨hphase, ⟨hroom, rfl⟩ | ⟨hroom, rfl⟩⟩ := rxpush_cases _ _ _ h
  · exact .appended q g chunk rest hport hpass hphase hroom
  · exact .overflowed q g chunk rest hport hpass hphase hroom

/-- Every step that answers a next state has one of the effects. -/
theorem effect_of_step (s t : State) (h : step s = .next t) : Effect s t := by
  obtain ⟨-, rfl⟩ | ⟨q, g, ⟨r, rest, hport, hcmd, hlock, hexec⟩ | ⟨hpass, rfl⟩ | ⟨hpass, chunk, rest, hport, hexec⟩ |
    ⟨hline, hpass, rfl⟩ | ⟨hline, hpass, rfl⟩⟩ := step_cases s t h
  · exact .waited
  · exact effect_of_request q g r rest s t hport hcmd hlock hexec
  · exact effect_of_iteration q g s hpass
  · exact effect_of_chunk q g chunk rest s t hport hpass hexec
  · exact .resetByLine q g hline hpass
  · exact .closed q g hline hpass

end Sys2Proof.Machine
end

section
/-! The invariant: what it reads, and that each operation of the block keeps it. -/

namespace Sys2Proof.Machine

/-- The state with all that the invariant does not read at rest: the count of wakes, what waits outside, the schedule
and the result log. -/
def blockOf (s : State) : State :=
  { s with wakeCnt := 0, cmdPort := [], rxPort := [], rstPin := false, closeReq := false, sched := [], grants := 0,
           results := [] }

theorem inv_blockOf_iff (s : State) : Inv (blockOf s) ↔ Inv s := by
  constructor <;> rintro ⟨h1, h2, h3, h4, h5, h6, h7, h8, h9⟩ <;> exact ⟨h1, h2, h3, h4, h5, h6, h7, h8, h9⟩

/-- The invariant reads the block's own registers only. -/
theorem Inv.of_blockOf_eq {s t : State} (h : Inv s) (e : blockOf t = blockOf s) : Inv t := by
  rw [← inv_blockOf_iff, e, inv_blockOf_iff]; exact h

theorem inv_resetOf (c : Config) : Inv (State.resetOf c) where
  withinCap    := resetOf_wf c
  reserved     := fun x _ => dtRead_resetOf c x
  application  := fun x hx => .inl ((dtRead_resetOf c x).trans (resetHandler_wrong x hx))
  setupQuiet   := fun _ => ⟨rfl, rfl, rfl, rfl, rfl⟩
  passDone     := fun _ o n h => by cases h
  latchIsLast  := rfl
  dispatches   := fun d hd => by cases hd
  sent         := fun f hf => by cases hf
  overflowFinite := fun h => by cases h

theorem inv_resetBlock (s : State) : Inv (resetBlock s) := (inv_resetOf s.cfg).of_blockOf_eq rfl

/-- R116: a valid frame more was sent. -/
theorem Inv.emitTx {s : State} (h : Inv s) (send : Bool) (f : List Byte) (hf : ValidFrame s.cfg s.cfg.markEnc f) :
    Inv (emitTx send f s) := by
  cases send
  · exact h
  · refine { h with sent := fun x hx => ?_ }
    obtain hx | hx := List.mem_append.1 hx
    · exact h.sent x hx
    · rw [List.mem_singleton.1 hx]; exact hf

/-- R171: in `SETUP` nothing has been dispatched, and the entry written is no reserved one. -/
theorem Inv.dtWrite {s : State} (h : Inv s) (c : Byte) (k : Nat) (hphase : s.phase = .setup) (hk : k < s.cfg.nApp)
    (happ : isReservedCode c = false) : Inv (dtWrite c (.app k) s) := by
  obtain ⟨-, -, hlog, -, -⟩ := h.setupQuiet hphase
  refine { h with reserved := fun x hx => ?_, application := fun x hx => ?_, dispatches := fun d hd => ?_ }
  · have hne : x ≠ c := by rintro rfl; rw [happ] at hx; cases hx
    rw [dtRead_dtWrite, if_neg hne]; exact h.reserved x hx
  · rw [dtRead_dtWrite]
    split
    · exact .inr ⟨k, hk, rfl⟩
    · exact h.application x hx
  · rw [dtWrite_displog, hlog] at hd; cases hd

/-- R172. -/
theorem Inv.lock {s : State} (h : Inv s) : Inv { s with phase := .run } :=
  { h with setupQuiet := fun hp => by cases hp }

/-- R26: a pass is open in `RUN` only. -/
theorem Inv.run_of_pass {s : State} (h : Inv s) (hpass : s.pass = true) : s.phase = .run := by
  cases hp : s.phase
  · obtain ⟨-, hclosed, -⟩ := h.setupQuiet hp
    rw [hpass] at hclosed; cases hclosed
  · rfl

/-- R173: the dispatch of a whole slice inside a pass. -/
theorem Inv.takeDispatch {s : State} (h : Inv s) (f : List Byte) (hpass : s.pass = true)
    (hf : Framed s.cfg s.cfg.markDec f) : Inv (takeDispatch f (verifies s.cfg f) s) := by
  refine { h with setupQuiet := fun hp => ?_, latchIsLast := ?_, dispatches := fun d hd => ?_ }
  · rw [takeDispatch_phase, h.run_of_pass hpass] at hp; cases hp
  · rw [takeDispatch_lastf, takeDispatch_displog, List.getLast?_concat]
  · obtain hd | hd := List.mem_append.1 hd
    · exact h.dispatches d hd
    · rw [List.mem_singleton.1 hd]; exact ⟨hf, rfl, rfl⟩

/-- R144: bytes leave the buffer inside a pass. -/
theorem Inv.dropPrefix {s : State} (h : Inv s) (n : Nat) (hpass : s.pass = true) : Inv (dropPrefix n s) := by
  refine { h with withinCap := dropPrefix_wf n s h.withinCap, setupQuiet := fun hp => ?_, passDone := fun hp => ?_ }
  · rw [dropPrefix_phase, h.run_of_pass hpass] at hp; cases hp
  · rw [dropPrefix_pass, hpass] at hp; cases hp

/-- R145, R146 (c). -/
theorem Inv.endPass {s : State} (h : Inv s) (hnone : ∀ o n, find s.cfg s.rxbuf ≠ .candidate o n) : Inv (endPass s) := by
  refine { h with setupQuiet := fun hp => ?_, passDone := fun _ => hnone }
  obtain ⟨hbuf, -, hlog, hlatch, hflt⟩ := h.setupQuiet hp
  exact ⟨hbuf, rfl, hlog, hlatch, hflt⟩

/-- R140. -/
theorem Inv.appendChunk {s : State} (h : Inv s) (chunk : List Byte) (hphase : s.phase = .run)
    (hroom : roomFor s chunk = true) : Inv (appendChunk chunk s) := by
  refine { h with withinCap := appendChunk_wf chunk s hroom, setupQuiet := fun hp => ?_, passDone := fun hp => ?_ }
  · rw [appendChunk_phase, hphase] at hp; cases hp
  · cases hp

theorem finite_of_no_room {s : State} {chunk : List Byte} (hroom : roomFor s chunk = false) :
    s.cfg.rxbufCap ≠ none := by
  intro hcap; rw [roomFor, hcap] at hroom; cases hroom

/-- R141: only a finite buffer has no room. -/
theorem Inv.rxOverflow {s : State} (h : Inv s) (chunk : List Byte) (hphase : s.phase = .run)
    (hroom : roomFor s chunk = false) : Inv (rxOverflow s) := by
  refine { h with setupQuiet := fun hp => ?_, overflowFinite := fun _ => finite_of_no_room hroom }
  rw [rxOverflow_phase, hphase] at hp; cases hp

/-- Every effect of a step keeps the invariant. -/
theorem Inv.of_effect {s t : State} (h : Inv s) (e : Effect s t) : Inv t := by
  cases e with
  | waited => exact h
  | answered q g r rest res hport => exact h.of_blockOf_eq rfl
  | transmitted q g r rest f _ _ _ _ hvalid => exact (h.emitTx true f hvalid).of_blockOf_eq rfl
  | registered q g r rest c k _ _ hphase hindex happ => exact (h.dtWrite c k hphase hindex happ).of_blockOf_eq rfl
  | locked => exact h.lock.of_blockOf_eq rfl
  | acquired => exact h.of_blockOf_eq rfl
  | drained => exact h.of_blockOf_eq rfl
  | resetByRequest => exact (inv_resetBlock s).of_blockOf_eq rfl
  | dispatched q g o n hpass hfind =>
    exact ((h.takeDispatch _ hpass (framed_of_candidate _ _ o n hfind)).dropPrefix (o + n) hpass).of_blockOf_eq rfl
  | passEnded q g hpass hnone => exact (h.endPass hnone).of_blockOf_eq rfl
  | appended q g chunk rest _ _ hphase hroom => exact (h.appendChunk chunk hphase hroom).of_blockOf_eq rfl
  | overflowed q g chunk rest _ _ hphase hroom => exact (h.rxOverflow chunk hphase hroom).of_blockOf_eq rfl
  | resetByLine => exact (inv_resetBlock s).of_blockOf_eq rfl
  | closed => exact h.of_blockOf_eq rfl

/-- Settles O46: by the one case split over what a step can leave. -/
theorem stepKeepsTheInvariant : Obligations.StepKeepsTheInvariant := by
  unfold Obligations.StepKeepsTheInvariant
  intro s t hinv hstep
  exact hinv.of_effect (effect_of_step s t hstep)

/-- Settles O47: the reset table is the reset handlers, and everything else of the block is empty. -/
theorem resetMeetsTheInvariant : Obligations.ResetMeetsTheInvariant := by
  unfold Obligations.ResetMeetsTheInvariant
  exact inv_resetOf

end Sys2Proof.Machine
end

section
/-! The decoder of frames: which sequences it accepts and what it reads, and that classifying undoes naming a class. -/

namespace Sys2Proof

open Machine

theorem framed_getD_markDec {c : Config} {f : List Byte} (h : Framed c c.markDec f) :
    (f.getD 0 0, f.getD 1 0) = c.markDec := by
  obtain ⟨-, h0, h1, -⟩ := h
  rw [h0, h1]

/-- R88, R208 (b), (c): of a framed sequence only the checksum is still tested. -/
theorem decodeFrame_of_framed (c : Config) (f : List Byte) (h : Framed c c.markDec f) :
    decodeFrame c f =
      if verifies c f then .instr (classify (frameAddress c f) (frameCommand c f) (framePayload c f))
      else .reject .badChecksum := by
  obtain ⟨hmin, -, -, hlen⟩ := id h
  rw [decodeFrame, if_neg (by omega), if_neg (not_not.2 (framed_getD_markDec h)), if_neg (by omega),
    if_neg (not_not.2 hlen)]

/-- R88: what passes the decoder's first four tests is framed. -/
theorem framed_of_decodeFrame (c : Config) (f : List Byte) (i : Instr) (h : decodeFrame c f = .instr i) :
    Framed c c.markDec f := by
  unfold decodeFrame at h
  split_ifs at h with hmin hmark hlegal hlen
  exact ⟨by omega, congrArg Prod.fst (not_not.1 hmark), congrArg Prod.snd (not_not.1 hmark), not_not.1 hlen⟩

theorem decodeFrame_eq_instr_iff (c : Config) (f : List Byte) (i : Instr) :
    decodeFrame c f = .instr i ↔
      ValidFrame c c.markDec f ∧ i = classify (frameAddress c f) (frameCommand c f) (framePayload c f) := by
  constructor
  · intro h
    have hf := framed_of_decodeFrame c f i h
    rw [decodeFrame_of_framed c f hf] at h
    split_ifs at h with hv
    cases h
    exact ⟨⟨hf, (verifies_iff c f).1 hv⟩, rfl⟩
  · rintro ⟨⟨hf, hck⟩, rfl⟩
    rw [decodeFrame_of_framed c f hf, if_pos ((verifies_iff c f).2 hck)]

/-! ### The fields of a frame -/

theorem frameAddress_buildFrame (c : Config) (m : Byte × Byte) (a cmd : Byte) (p : List Byte) :
    frameAddress c (buildFrame c m a cmd p) = if c.hasAddr then a else 0 := by
  unfold frameAddress buildFrame frameBody
  cases c.hasAddr <;> rfl

theorem frameFieldsOk_iff (c : Config) (a : Byte) (p : List Byte) :
    frameFieldsOk c a p = true ↔ p.length ≤ c.maxPayload ∧ (c.hasAddr = true ∨ a = 0) := by
  simp [frameFieldsOk]

/-- R80, R81, R89: a framed sequence without its last byte is the body of its own fields. -/
theorem frameBody_fields (c : Config) (f : List Byte) (h : Framed c c.markDec f) :
    frameBody c c.markDec (frameAddress c f) (frameCommand c f) (framePayload c f) = f.dropLast := by
  have hplen := framePayload_length c f
  obtain ⟨hmin, h0, h1, h2⟩ := h
  rw [c.minLen_eq] at hmin
  have hlen : u8 (c.hdr + (framePayload c f).length + 1) = f.getD 2 0 := by
    rw [hplen, show c.hdr + (f.length - c.hdr - 1) + 1 = (f.getD 2 0).toNat by omega]
    exact BitVec.ofNat_toNat 8 _
  rw [frameBody, hlen, ← h0, ← h1]
  obtain ⟨ha, hh⟩ | ⟨ha, hh⟩ := c.hdr_cases <;> rw [hh] at hmin <;>
    simp only [frameAddress, frameCommand, framePayload, ha, hh]
  · match f, hmin with
    | x0 :: x1 :: x2 :: x3 :: x4 :: r, _ => rfl
  · match f, hmin with
    | x0 :: x1 :: x2 :: x3 :: x4 :: x5 :: r, _ => rfl

/-- R88, R94: a valid frame of the receive direction is the frame of its own fields. -/
theorem rxFrame_fields (c : Config) (f : List Byte) (h : ValidFrame c c.markDec f) :
    rxFrame c (frameAddress c f) (frameCommand c f) (framePayload c f) = f := by
  obtain ⟨hf, hck⟩ := h
  rw [rxFrame, buildFrame, frameBody_fields c f hf]
  exact List.dropLast_append_getLast? _ hck

theorem frameFieldsOk_fields (c : Config) (f : List Byte) (h : Framed c c.markDec f) :
    frameFieldsOk c (frameAddress c f) (framePayload c f) = true := by
  obtain ⟨-, -, -, hlen⟩ := h
  have hbyte := (f.getD 2 0).isLt
  rw [frameFieldsOk_iff, framePayload_length, c.maxPayload_eq]
  refine ⟨by omega, ?_⟩
  unfold frameAddress
  cases c.hasAddr
  · exact .inr rfl
  · exact .inl rfl

/-! ### The classes -/

/-- R90: every class is the one its command byte names, and a class of the range has no reserved code. -/
theorem classify_cases (a cmd : Byte) (p : List Byte) :
    (cmd = 0x00 ∧ classify a cmd p = .ping a p) ∨ (cmd = 0xFA ∧ classify a cmd p = .rsvdFa a p) ∨
    (cmd = 0xFB ∧ classify a cmd p = .rsvdFb a p) ∨ (cmd = 0xFC ∧ classify a cmd p = .bufOvf a p) ∨
    (cmd = 0xFD ∧ classify a cmd p = .crcErr a p) ∨ (cmd = 0xFE ∧ classify a cmd p = .text a p) ∨
    (cmd = 0xFF ∧ classify a cmd p = .wrong a p) ∨ (isReservedCode cmd = false ∧ classify a cmd p = .app a cmd p) := by
  unfold classify
  split_ifs with h0 h1 h2 h3 h4 h5 h6 <;> simp only [*, true_and, and_false, false_or, or_false]
  revert cmd
  decide

theorem classify_app (a cmd : Byte) (p : List Byte) (h : isReservedCode cmd = false) :
    classify a cmd p = .app a cmd p := by
  obtain ⟨rfl, -⟩ | ⟨rfl, -⟩ | ⟨rfl, -⟩ | ⟨rfl, -⟩ | ⟨rfl, -⟩ | ⟨rfl, -⟩ | ⟨rfl, -⟩ | ⟨-, e⟩ := classify_cases a cmd p
  case inr.inr.inr.inr.inr.inr.inr => exact e
  all_goals cases h

theorem encode_classify (c : Config) (a cmd : Byte) (p : List Byte) :
    encode c (classify a cmd p) = .frame (rxFrame c a cmd p) := by
  obtain ⟨rfl, e⟩ | ⟨rfl, e⟩ | ⟨rfl, e⟩ | ⟨rfl, e⟩ | ⟨rfl, e⟩ | ⟨rfl, e⟩ | ⟨rfl, e⟩ | ⟨-, e⟩ := classify_cases a cmd p <;>
    rw [e] <;> rfl

theorem wellFormed_classify (c : Config) (a cmd : Byte) (p : List Byte) :
    WellFormed c (classify a cmd p) = frameFieldsOk c a p := by
  obtain ⟨rfl, e⟩ | ⟨rfl, e⟩ | ⟨rfl, e⟩ | ⟨rfl, e⟩ | ⟨rfl, e⟩ | ⟨rfl, e⟩ | ⟨rfl, e⟩ | ⟨h, e⟩ := classify_cases a cmd p <;>
    rw [e]
  case inr.inr.inr.inr.inr.inr.inr => simp [WellFormed, h]
  all_goals rfl

/-- R90, R94: the frame the peer sends decodes to the class of its command byte. -/
theorem decode_rxFrame (c : Config) (a cmd : Byte) (p : List Byte) (h : frameFieldsOk c a p = true) :
    decode c (.frame (rxFrame c a cmd p)) = .instr (classify a cmd p) := by
  obtain ⟨hlen, haddr⟩ := (frameFieldsOk_iff c a p).1 h
  have ha : frameAddress c (rxFrame c a cmd p) = a := by
    rw [rxFrame, frameAddress_buildFrame]
    cases hb : c.hasAddr
    · rw [hb] at haddr
      exact (haddr.resolve_left Bool.false_ne_true).symm
    · rfl
  refine (decodeFrame_eq_instr_iff c _ _).2 ⟨validFrame_buildFrame c c.markDec a cmd p hlen, ?_⟩
  rw [ha, rxFrame, frameCommand_buildFrame, framePayload_buildFrame]

end Sys2Proof
end

section
/-! The statements of 30_encoding.md on decoding and encoding. -/

namespace Sys2Proof.Machine

/-- Settles O55: a frame class is the class of the frame sent for it; an operation stands in the lanes of its row. -/
theorem decodeUndoesEncode : Obligations.DecodeUndoesEncode := by
  unfold Obligations.DecodeUndoesEncode
  intro c i h
  cases i with
  | ping a p => exact decode_rxFrame c a 0x00 p h
  | rsvdFa a p => exact decode_rxFrame c a 0xFA p h
  | rsvdFb a p => exact decode_rxFrame c a 0xFB p h
  | bufOvf a p => exact decode_rxFrame c a 0xFC p h
  | crcErr a p => exact decode_rxFrame c a 0xFD p h
  | text a p => exact decode_rxFrame c a 0xFE p h
  | wrong a p => exact decode_rxFrame c a 0xFF p h
  | app a cmd p =>
    obtain ⟨hfields, hcode⟩ : frameFieldsOk c a p = true ∧ isReservedCode cmd = false := by simpa [WellFormed] using h
    exact (decode_rxFrame c a cmd p hfields).trans (by rw [classify_app a cmd p hcode])
  | _ => rfl

/-- Settles O56: an accepted sequence is valid, and a valid frame is the frame of its own fields. -/
theorem frameDecoderAcceptsExactlyValidFrames : Obligations.FrameDecoderAcceptsExactlyValidFrames := by
  unfold Obligations.FrameDecoderAcceptsExactlyValidFrames
  intro c f
  refine ⟨⟨fun ⟨i, h⟩ => ((decodeFrame_eq_instr_iff c f i).1 h).1,
    fun h => ⟨_, (decodeFrame_eq_instr_iff c f _).2 ⟨h, rfl⟩⟩⟩, fun i h => ?_⟩
  obtain ⟨hv, rfl⟩ := (decodeFrame_eq_instr_iff c f i).1 h
  rw [encode_classify, rxFrame_fields c f hv, wellFormed_classify]
  exact ⟨rfl, frameFieldsOk_fields c f hv.1⟩

/-- Settles O57: each word is a concrete sequence or request, which the decoder computes on. -/
theorem specWordsDecode : Obligations.SpecWordsDecode := by
  unfold Obligations.SpecWordsDecode
  decide +kernel

end Sys2Proof.Machine
end

section
/-! The checksum as one byte-by-byte fold for both kinds, whose step is linear and answers 0 only where the byte is the
register: the laws of R115 follow from these two facts. -/

namespace Sys2Proof

/-! ### The step of the checksum -/

/-- R111, R113: one byte enters the register, under `CK_KIND`. -/
def ckStep (c : Config) : Byte → Byte → Byte :=
  match c.ckKind with
  | .crc8 => crcByte
  | .xor8 => fun r b => r ^^^ b

theorem ck_eq_foldl (c : Config) (s : List Byte) : ck c s = s.foldl (ckStep c) 0 := by
  unfold ck ckStep
  cases c.ckKind
  · exact BitVec.xor_zero
  · rfl

theorem ck_append (c : Config) (s t : List Byte) : ck c (s ++ t) = t.foldl (ckStep c) (ck c s) := by
  simp only [ck_eq_foldl, List.foldl_append]

theorem crcShift_xor (a b : Byte) : crcShift (a ^^^ b) = crcShift a ^^^ crcShift b := by
  unfold crcShift
  rw [BitVec.msb_xor, BitVec.shiftLeft_xor_distrib]
  cases a.msb <;> cases b.msb <;> simp <;> ac_nf
  simp

theorem crcShifts_xor (n : Nat) (a b : Byte) : crcShifts n (a ^^^ b) = crcShifts n a ^^^ crcShifts n b := by
  induction n generalizing a b with
  | zero => rfl
  | succ n ih => rw [crcShifts, crcShift_xor, ih]; rfl

theorem xor_xor_xor_comm (a b x y : Byte) : (a ^^^ b) ^^^ (x ^^^ y) = (a ^^^ x) ^^^ (b ^^^ y) := by ac_rfl

/-- R115 (b), for one byte. -/
theorem ckStep_xor (c : Config) (a b x y : Byte) : ckStep c (a ^^^ b) (x ^^^ y) = ckStep c a x ^^^ ckStep c b y := by
  unfold ckStep
  cases c.ckKind
  · exact (congrArg (crcShifts 8) (xor_xor_xor_comm a b x y)).trans (crcShifts_xor 8 _ _)
  · exact xor_xor_xor_comm a b x y

theorem ckStep_eq_zero_iff (c : Config) (r b : Byte) : ckStep c r b = 0 ↔ b = r := by
  unfold ckStep
  cases c.ckKind
  · exact crcByte_eq_zero_iff r b
  · rw [eq_comm (a := b)]; exact BitVec.xor_eq_zero_iff

/-- Two steps agree only if what entered them differs by the same bits in register and byte. -/
theorem ckStep_eq_iff (c : Config) (a b x y : Byte) : ckStep c a x = ckStep c b y ↔ x ^^^ y = a ^^^ b := by
  rw [← BitVec.xor_eq_zero_iff, ← ckStep_xor]; exact ckStep_eq_zero_iff c _ _

theorem ckStep_right_inj (c : Config) (r x y : Byte) : ckStep c r x = ckStep c r y ↔ x = y := by
  rw [ckStep_eq_iff, BitVec.xor_self, BitVec.xor_eq_zero_iff]

theorem ckStep_left_inj (c : Config) (a b x : Byte) : ckStep c a x = ckStep c b x ↔ a = b := by
  rw [ckStep_eq_iff, BitVec.xor_self, eq_comm, BitVec.xor_eq_zero_iff]

theorem foldl_ckStep_inj (c : Config) (q : List Byte) (a b : Byte) :
    q.foldl (ckStep c) a = q.foldl (ckStep c) b ↔ a = b := by
  induction q generalizing a b with
  | nil => rfl
  | cons x q ih => rw [List.foldl_cons, List.foldl_cons, ih, ckStep_left_inj]

theorem foldl_ckStep_xor (c : Config) (s t : List Byte) (h : s.length = t.length) (a b : Byte) :
    (List.zipWith (fun x y => x ^^^ y) s t).foldl (ckStep c) (a ^^^ b) =
      s.foldl (ckStep c) a ^^^ t.foldl (ckStep c) b := by
  induction s generalizing t a b with
  | nil => rw [List.length_eq_zero_iff.1 h.symm]; rfl
  | cons x s ih =>
    match t, h with
    | y :: t, h =>
      rw [List.zipWith_cons_cons, List.foldl_cons, ckStep_xor, ih t (Nat.succ.inj h)]
      rfl

/-- R115 (a), (a'). -/
theorem ck_append_byte_eq_zero_iff (c : Config) (g : List Byte) (b : Byte) : ck c (g ++ [b]) = 0 ↔ b = ck c g := by
  rw [ck_append]; exact ckStep_eq_zero_iff c _ b

/-- R115 (d), (d'), for any other byte in the place of one. -/
theorem ck_replace_inj (c : Config) (p q : List Byte) (x y : Byte) :
    ck c (p ++ [x] ++ q) = ck c (p ++ [y] ++ q) ↔ x = y := by
  rw [ck_append c (p ++ [x]), ck_append c (p ++ [y]), foldl_ckStep_inj, ck_append, ck_append]
  exact ckStep_right_inj c _ x y

theorem flipped_ne (b : Byte) (k : Fin 8) : b ^^^ BitVec.twoPow 8 k ≠ b := by
  intro h
  have hk : ∀ k : Fin 8, BitVec.twoPow 8 k ≠ 0 := by decide
  exact hk k ((BitVec.xor_right_inj b).1 (h.trans BitVec.xor_zero.symm))

/-! ### The bitwise and the table-driven form -/

/-- R111: one shift, on the number that the register holds. -/
def shiftNumber (c : Nat) : Nat := if 128 ≤ c then (2 * c % 256) ^^^ 0x1D else 2 * c % 256

theorem crcShift_toNat : ∀ c : Byte, (crcShift c).toNat = shiftNumber c.toNat := by decide

theorem crcShifts_toNat (n : Nat) (c : Byte) : (crcShifts n c).toNat = Nat.iterate shiftNumber n c.toNat := by
  induction n generalizing c with
  | zero => rfl
  | succ n ih => rw [crcShifts, ih, crcShift_toNat]; rfl

theorem crc8_append_byte (s : List Byte) (b : Byte) : crc8 (s ++ [b]) = crcShifts 8 (crc8 s ^^^ b) := crc8_append s [b]

theorem crc8_singleton (b : Byte) : crc8 [b] = crcShifts 8 b := by
  rw [← List.nil_append [b], crc8_append_byte]; exact congrArg _ BitVec.zero_xor

theorem crcRom_length : crcRom.length = 256 := by decide +kernel

/-- R112: the printed table, entry by entry. -/
theorem romRead_eq_crcShifts : ∀ i : Byte, romRead i = crcShifts 8 i := by decide +kernel

end Sys2Proof
end

section
/-! The statements of 40_codec.md section 1. -/

namespace Sys2Proof.Machine

/-- Settles O2: the register is eight shifts of (register xor byte), and a shift on the number is `crcShift`. -/
theorem crcRegisterStepsBitByBit : Obligations.CrcRegisterStepsBitByBit := by
  unfold Obligations.CrcRegisterStepsBitByBit
  refine ⟨rfl, fun s b => ?_⟩
  rw [crc8_append_byte, crcShifts_toNat, BitVec.toNat_xor]
  rfl

/-- Settles O3: the table is the eight shifts of its index, and both forms fold their step over the message. -/
theorem tableDrivenCrcIsBitwiseCrc : Obligations.TableDrivenCrcIsBitwiseCrc := by
  unfold Obligations.TableDrivenCrcIsBitwiseCrc
  refine ⟨fun s => ?_, fun i => (romRead_eq_crcShifts i).trans (crc8_singleton i).symm, crcRom_length⟩
  have hstep : (fun c b => romRead (c ^^^ b)) = crcByte := funext₂ fun c b => romRead_eq_crcShifts (c ^^^ b)
  rw [crc8Table, hstep, crc8]

/-- Settles O4: the step brings the register to 0 exactly on the byte it holds. -/
theorem checksumResidueIsZero : Obligations.ChecksumResidueIsZero := by
  unfold Obligations.ChecksumResidueIsZero
  exact ck_append_byte_eq_zero_iff

/-- Settles O5: the step is linear, and both kinds start at 0. -/
theorem checksumIsLinear : Obligations.ChecksumIsLinear := by
  unfold Obligations.ChecksumIsLinear
  intro c s t h
  simp only [ck_eq_foldl]
  exact foldl_ckStep_xor c s t h 0 0

/-- Settles O6: the step is injective in the byte, and the rest of the fold in the register. -/
theorem checksumSeesOneFlippedBit : Obligations.ChecksumSeesOneFlippedBit := by
  unfold Obligations.ChecksumSeesOneFlippedBit
  intro c p q b k h
  exact flipped_ne b k ((ck_replace_inj c p q _ _).1 h)

end Sys2Proof.Machine
end

section
/-! Typed fields as sums of weighted bytes, and what the field operations answer. -/

namespace Sys2Proof

/-! ### Values of byte sequences -/

theorem leBytes_eq_map (n v : Nat) : leBytes n v = (List.range n).map fun i => BitVec.ofNat 8 (v / 256 ^ i) := by
  induction n generalizing v with
  | zero => rfl
  | succ n ih =>
    rw [leBytes, ih, List.range_succ_eq_map, List.map_cons, List.map_map]
    congr 1
    · rw [pow_zero, Nat.div_one]; rfl
    · refine List.map_congr_left fun i _ => ?_
      rw [Nat.div_div_eq_div_mul, Function.comp_apply, Nat.succ_eq_add_one, pow_succ']

theorem leValue_append (s t : List Byte) : leValue (s ++ t) = leValue s + 256 ^ s.length * leValue t := by
  induction s with
  | nil => simp [leValue]
  | cons b s ih => rw [List.cons_append, leValue, ih, leValue, List.length_cons, pow_succ]; ring

/-- R53: byte `i` weighs `256^i`. -/
theorem leValue_map_range (n : Nat) (g : Nat → Byte) :
    leValue ((List.range n).map g) = ((List.range n).map fun i => (g i).toNat * 256 ^ i).sum := by
  induction n with
  | zero => rfl
  | succ n ih => simp [List.range_succ, leValue_append, ih, leValue, mul_comm]

/-- R53: read the other way round, byte `i` weighs `256^(n-1-i)`. -/
theorem leValue_reverse_map_range (n : Nat) (g : Nat → Byte) :
    leValue ((List.range n).map g).reverse = ((List.range n).map fun i => (g i).toNat * 256 ^ (n - 1 - i)).sum := by
  induction n with
  | zero => rfl
  | succ n ih =>
    have hshift : 256 * ((List.range n).map fun i => (g i).toNat * 256 ^ (n - 1 - i)).sum =
        ((List.range n).map fun i => (g i).toNat * 256 ^ (n - i)).sum := by
      rw [← List.sum_map_mul_left]
      refine congrArg _ (List.map_congr_left fun i hi => ?_)
      rw [show n - i = n - 1 - i + 1 by have := List.mem_range.1 hi; omega, pow_succ]; ring
    simp [List.range_succ, leValue, ih, hshift, add_comm]

/-- R55: the low `m` bytes are the value modulo `256^m`. -/
theorem leValue_take (m : Nat) (s : List Byte) : leValue (s.take m) = leValue s % 256 ^ m := by
  induction m generalizing s with
  | zero => simp [leValue, Nat.mod_one]
  | succ m ih =>
    cases s with
    | nil => simp [leValue]
    | cons b s =>
      rw [List.take_succ_cons, leValue, ih, leValue, pow_succ', Nat.mod_mul]
      have hb := b.isLt
      rw [show (b.toNat + 256 * leValue s) % 256 = b.toNat by omega,
        show (b.toNat + 256 * leValue s) / 256 = leValue s by omega]

theorem fieldValue_fieldBytes (o : ByteOrder) (f : Field) (h : f.value < 256 ^ f.width) :
    fieldValue o (fieldBytes o f) = f.value := by
  cases o <;> simp [fieldValue, fieldBytes, leValue_leBytes _ _ h]

theorem fieldBytes_eq (o : ByteOrder) (f : Field) :
    fieldBytes o f =
      if o = .little then (List.range f.width).map fun i => BitVec.ofNat 8 (f.value / 256 ^ i)
      else ((List.range f.width).map fun i => BitVec.ofNat 8 (f.value / 256 ^ i)).reverse := by
  cases o <;> simp [fieldBytes, leBytes_eq_map]

/-- R118: the first `n` payload bytes stand from offset `HDR` on. -/
theorem framePayload_take (c : Config) (f : List Byte) (n : Nat) (h : n + c.hdr + 1 ≤ f.length) :
    (framePayload c f).take n = (List.range n).map fun i => f.getD (c.hdr + i) 0 := by
  refine List.ext_getElem (by simp [framePayload_length]; omega) fun i h1 h2 => ?_
  have hi : i < n := by simpa using h2
  simp [framePayload, List.getElem?_eq_getElem (show c.hdr + i < f.length by omega)]

theorem Field.fits_iff (f : Field) : f.fits = true ↔ 1 ≤ f.width ∧ f.value < 256 ^ f.width := by
  simp [Field.fits]

namespace Machine

/-! ### The field operations -/

theorem exec_decf_in_range (f : List Byte) (n : Nat) (s : State) (h : decodeInRange s.cfg f n = true) :
    exec (.decf f n) s = .next (giveResult (.number (decodeField s.cfg f n)) s) := if_pos h

theorem exec_decf_out_of_range (f : List Byte) (n : Nat) (s : State) (h : ¬ decodeInRange s.cfg f n = true) :
    exec (.decf f n) s = .next (raise .decodeRange s) := if_neg h

/-- A `DECF` that answered a number was in range. -/
theorem exec_decf_number (f : List Byte) (n v : Nat) (s : State)
    (h : exec (.decf f n) s = .next (giveResult (.number v) s)) :
    decodeInRange s.cfg f n = true ∧ v = decodeField s.cfg f n := by
  by_cases hr : decodeInRange s.cfg f n = true
  · rw [exec_decf_in_range f n s hr] at h
    have hres := congrArg State.results (Host.Outcome.next.inj h)
    simp only [giveResult_results, List.append_cancel_left_eq, List.cons.injEq, Result.number.injEq, and_true] at hres
    exact ⟨hr, hres.symm⟩
  · rw [exec_decf_out_of_range f n s hr] at h
    have hres := congrArg State.results (Host.Outcome.next.inj h)
    simp at hres

theorem exec_encf_of_fits (cmd addr : Byte) (fields : List Field) (send : Bool) (s : State)
    (h : ∀ f ∈ fields, 1 ≤ f.width ∧ f.value < 256 ^ f.width) :
    exec (.encf cmd addr fields send) s = exec (.enc cmd addr (fieldsBytes s.cfg.fieldOrder fields) send) s :=
  if_pos (List.all_eq_true.2 fun f hf => f.fits_iff.2 (h f hf))

theorem exec_encf_of_misfit (cmd addr : Byte) (fields : List Field) (send : Bool) (s : State)
    (h : ∃ f ∈ fields, f.width = 0 ∨ 256 ^ f.width ≤ f.value) :
    exec (.encf cmd addr fields send) s = .refused .badOperand := by
  refine if_neg fun hall => ?_
  obtain ⟨f, hf, hbad⟩ := h
  obtain ⟨hw, hv⟩ := f.fits_iff.1 (List.all_eq_true.1 hall f hf)
  omega

end Machine

end Sys2Proof
end

section
/-! The statements of 40_codec.md sections 2 to 4 and 20_memory.md section 2. -/

namespace Sys2Proof.Machine

/-- Settles O9: by the lemmas of the built frame; `MAX_PAYLOAD` leaves room for header and checksum in 255 bytes. -/
theorem encodedFrameIsValid : Obligations.EncodedFrameIsValid := by
  unfold Obligations.EncodedFrameIsValid
  intro c m a cmd p h
  refine ⟨validFrame_buildFrame c m a cmd p h, buildFrame_length c m a cmd p, ?_, frameCommand_buildFrame c m a cmd p,
    framePayload_buildFrame c m a cmd p⟩
  rw [buildFrame_length]
  have := c.hdr_cases
  rw [c.maxPayload_eq] at h
  omega

/-- Settles O10: the serializer's bytes are the digits to base 256, and `ENCF` hands them to `ENC`. -/
theorem encfSerializesItsFields : Obligations.EncfSerializesItsFields := by
  unfold Obligations.EncfSerializesItsFields
  intro cmd addr fields send s
  refine ⟨fun h payload hp => ?_, exec_encf_of_misfit cmd addr fields send s⟩
  have hbytes : payload = fieldsBytes s.cfg.fieldOrder fields := by
    rw [hp, fieldsBytes]
    exact congrArg (fun g => fields.flatMap g) (funext fun f => (fieldBytes_eq s.cfg.fieldOrder f).symm)
  rw [hbytes]
  exact ⟨fieldsBytes_length _ _, exec_encf_of_fits cmd addr fields send s h, _,
    exec_encf_of_fits cmd addr fields send s h⟩

/-- Settles O11: the payload's first bytes are those from offset `HDR` on, weighted in either order. -/
theorem decfReadsTheField : Obligations.DecfReadsTheField := by
  unfold Obligations.DecfReadsTheField
  intro f n s
  rw [← decodeInRange_iff]
  refine ⟨fun h => ?_, exec_decf_out_of_range f n s⟩
  obtain ⟨-, hn⟩ := (decodeInRange_iff _ _ _).1 h
  rw [exec_decf_in_range f n s h, decodeField, framePayload_take s.cfg f n hn]
  refine ⟨fun ho => ?_, fun ho => ?_⟩ <;> rw [ho, fieldValue]
  · rw [leValue_map_range]; rfl
  · rw [leValue_reverse_map_range]; rfl

/-- Settles O12: the built frame's payload is the field's bytes, and reading them undoes writing them. -/
theorem decfUndoesEncf : Obligations.DecfUndoesEncf := by
  unfold Obligations.DecfUndoesEncf
  intro cmd addr n v s hn hmax hv
  have hlen : (fieldBytes s.cfg.fieldOrder ⟨n, v⟩).length = n := fieldBytes_length _ _
  have hbytes : fieldsBytes s.cfg.fieldOrder [⟨n, v⟩] = fieldBytes s.cfg.fieldOrder ⟨n, v⟩ := by simp [fieldsBytes]
  refine ⟨buildFrame s.cfg s.cfg.markEnc addr cmd (fieldBytes s.cfg.fieldOrder ⟨n, v⟩), ?_, ?_⟩
  · rw [exec_encf_of_fits cmd addr _ false s (by simp [hn, hv]), hbytes,
      exec_enc_of_fits cmd addr _ false s (by rw [hlen]; exact hmax)]
    rfl
  · rw [exec_decf_in_range, decodeField, framePayload_buildFrame, List.take_of_length_le hlen.le,
      fieldValue_fieldBytes _ _ hv]
    · rfl
    · rw [decodeInRange_iff, buildFrame_length, hlen, s.cfg.minLen_eq]
      omega

/-- Settles O13: the narrower field is the start of the wider one, and the start of a little-endian value is its low part. -/
theorem narrowFieldIsLowBytes : Obligations.NarrowFieldIsLowBytes := by
  unfold Obligations.NarrowFieldIsLowBytes
  intro f m n v s ho hmn h
  obtain ⟨hr, rfl⟩ := exec_decf_number f n v s h
  obtain ⟨hmin, hn⟩ := (decodeInRange_iff _ _ _).1 hr
  have hnarrow : decodeField s.cfg f m = decodeField s.cfg f n % 256 ^ m := by
    rw [decodeField, decodeField, ho, fieldValue, fieldValue, ← leValue_take, List.take_take, Nat.min_eq_left hmn]
  rw [exec_decf_in_range f m s ((decodeInRange_iff _ _ _).2 ⟨hmin, by omega⟩), hnarrow]
  rfl

end Sys2Proof.Machine
end

section
/-! What `REG`, `DISPATCH`, `RXPUSH` and the small operations answer, case by case. -/

namespace Sys2Proof.Machine

theorem isReservedCode_eq_false_iff (c : Byte) : isReservedCode c = false ↔ 1 ≤ c.toNat ∧ c.toNat ≤ 0xF9 := by
  rw [← Bool.not_eq_true, isReservedCode_iff]; omega

theorem Phase.ne_run_iff (p : Phase) : p ≠ .run ↔ p = .setup := by cases p <;> simp

/-- R171: `REG` of an application code in `SETUP`. -/
theorem exec_reg_of_application (c : Byte) (k : Nat) (s : State) (hk : k < s.cfg.nApp) (hsetup : s.phase = .setup)
    (happ : isReservedCode c = false) :
    exec (.reg c k) s = .next (giveResult .done (dtWrite c (.app k) s)) := by
  change execReg c k s = _
  rw [execReg, if_neg (Nat.not_le.2 hk), if_neg ((Phase.ne_run_iff _).2 hsetup), if_neg (by rw [happ]; decide)]

/-- R171, R208 (d): in `RUN` the code is not looked at. -/
theorem exec_reg_of_run (c : Byte) (k : Nat) (s : State) (hk : k < s.cfg.nApp) (hrun : s.phase = .run) :
    exec (.reg c k) s = .next (raise (.registrationLocked c) s) := by
  change execReg c k s = _
  rw [execReg, if_neg (Nat.not_le.2 hk), if_pos hrun]

theorem exec_reg_of_bad_index (c : Byte) (k : Nat) (s : State) (hk : s.cfg.nApp ≤ k) :
    exec (.reg c k) s = .refused .badOperand := if_pos hk

/-- R173: a slice of at least `MIN_LEN` bytes has a command byte. -/
theorem exec_dispatch_of_minLen (f : List Byte) (ok : Bool) (s : State) (h : s.cfg.minLen ≤ f.length) :
    exec (.dispatch f ok) s = .next (takeDispatch f ok s) := by
  rw [s.cfg.minLen_eq] at h
  refine if_neg ?_
  rw [Bool.and_eq_true, decide_eq_true_eq]
  omega

theorem exec_app_of_application (a c : Byte) (p : List Byte) (s : State) (happ : isReservedCode c = false) :
    exec (.app a c p) s = receive a c p s := if_neg (by rw [happ]; decide)

theorem exec_lastfRd_of_some (d : Dispatched) (s : State) (h : s.lastf = some d) :
    exec .lastfRd s = .next (giveResult (.latch d) s) := by
  change execLastfRd s = _
  rw [execLastfRd, h]

theorem exec_lastfRd_of_none (s : State) (h : s.lastf = none) :
    exec .lastfRd s = .next (raise .lastfInvalid s) := by
  change execLastfRd s = _
  rw [execLastfRd, h]

theorem takeDispatch_eq (f : List Byte) (ok : Bool) (s : State) (d : Dispatched)
    (hd : d = ⟨selectHandler s f ok, f, ok⟩) :
    takeDispatch f ok s = { s with lastf := some d, displog := s.displog ++ [d], wakeCnt := s.wakeCnt + 1 } := by
  rw [hd]; rfl

theorem exec_rxpush_of_setup (chunk : List Byte) (s : State) (h : s.phase = .setup) :
    exec (.rxpush chunk) s = .refused .notRunning := if_pos h

theorem exec_rxpush_of_room (chunk : List Byte) (s : State) (h : s.phase = .run) (hroom : roomFor s chunk = true) :
    exec (.rxpush chunk) s = .next (giveResult .done (appendChunk chunk s)) := by
  change execRxpush chunk s = _
  rw [execRxpush, if_neg (by rw [h]; decide), if_pos hroom]

theorem exec_rxpush_of_no_room (chunk : List Byte) (s : State) (h : s.phase = .run) (hroom : roomFor s chunk = false) :
    exec (.rxpush chunk) s = .next (rxOverflow s) := by
  change execRxpush chunk s = _
  rw [execRxpush, if_neg (by rw [h]; decide), if_neg (by rw [hroom]; decide)]

theorem roomFor_eq_false (s : State) (chunk : List Byte) (cap : Nat) (hcap : s.cfg.rxbufCap = some cap)
    (h : cap < s.rxbuf.length + chunk.length) : roomFor s chunk = false := by
  rw [← Bool.not_eq_true, roomFor_iff]
  intro hroom
  exact absurd (hroom cap hcap) (by omega)

theorem resetHandler_of_ne (x : Byte) (h0 : x ≠ 0x00) (h1 : x ≠ 0xFC) (h2 : x ≠ 0xFD) (h3 : x ≠ 0xFE) :
    resetHandler x = .wrong := by
  rw [resetHandler, if_neg h0, if_neg h1, if_neg h2, if_neg h3]

end Sys2Proof.Machine
end

section
/-! The statements of 42_dispatch.md, 60_exceptions.md section 2 and the reset state. -/

namespace Sys2Proof.Machine

/-- Settles O14: `LOOKUP` is the read of the table in the result. -/
theorem lookupReadsTheEntry : Obligations.LookupReadsTheEntry := by
  unfold Obligations.LookupReadsTheEntry
  intro c s
  rfl

/-- Settles O15: the four arms of `REG`, the reserved codes by their two ranges. -/
theorem regWritesOneEntry : Obligations.RegWritesOneEntry := by
  unfold Obligations.RegWritesOneEntry
  intro c k s
  refine ⟨fun hk hsetup hlo hhi => ?_, fun hk hsetup hc => ?_, fun hk hrun => exec_reg_of_run c k s hk hrun,
    exec_reg_of_bad_index c k s⟩
  · refine ⟨_, exec_reg_of_application c k s hk hsetup ((isReservedCode_eq_false_iff c).2 ⟨hlo, hhi⟩), ?_,
      fun d hd => ?_, rfl⟩
    · exact (dtRead_dtWrite c c (.app k) s).trans (if_pos rfl)
    · exact (dtRead_dtWrite c d (.app k) s).trans (if_neg hd)
  · exact exec_reg_of_reserved_setup c k s ((isReservedCode_iff c).2 hc) hsetup hk

/-- Settles O16: the phase is the one field written. -/
theorem lockEntersRun : Obligations.LockEntersRun := by
  unfold Obligations.LockEntersRun
  intro s
  rfl

/-- Settles O17: the latch decides, and neither case writes it. -/
theorem lastfRdReadsTheLatch : Obligations.LastfRdReadsTheLatch := by
  unfold Obligations.LastfRdReadsTheLatch
  intro s
  exact ⟨fun d h => exec_lastfRd_of_some d s h, exec_lastfRd_of_none s⟩

/-- Settles O18: a slice is never refused, and its verdict chooses the handler. -/
theorem dispatchLatchesLogsAndWakes : Obligations.DispatchLatchesLogsAndWakes := by
  unfold Obligations.DispatchLatchesLogsAndWakes
  intro f s h
  refine ⟨fun d hd => ?_, fun d hd => ?_⟩ <;> rw [exec_dispatch_of_minLen _ _ _ h]
  · exact congrArg _ (takeDispatch_eq f true s d hd)
  · exact congrArg _ (takeDispatch_eq f false s d hd)

/-- Settles O20: each of the three classes receives under a reserved code, whose entry the premise fixes. -/
theorem pingAndReservedFramesSelectTheirHandler : Obligations.PingAndReservedFramesSelectTheirHandler := by
  unfold Obligations.PingAndReservedFramesSelectTheirHandler
  intro a p s hentries hfits i c h hmem d hd
  have hclass : isReservedCode c = true ∧ resetHandler c = h ∧ exec i s = receive a c p s := by
    simp only [List.mem_cons, Prod.mk.injEq, List.not_mem_nil, or_false] at hmem
    obtain ⟨rfl, rfl, rfl⟩ | ⟨rfl, rfl, rfl⟩ | ⟨rfl, rfl, rfl⟩ := hmem <;> exact ⟨by decide, by decide, rfl⟩
  obtain ⟨hreserved, hhandler, hexec⟩ := hclass
  have hentry : dtRead s c = h := (hentries c hreserved).trans hhandler
  rw [hexec]
  exact receive_of_fits s a c p hfits d (by rw [hd, hentry])

/-- Settles O21: an application code receives under its own entry, which `REG` in `SETUP` has written. -/
theorem appFrameSelectsItsEntry : Obligations.AppFrameSelectsItsEntry := by
  unfold Obligations.AppFrameSelectsItsEntry
  intro a c p s hlo hhi hfits
  have happ : isReservedCode c = false := (isReservedCode_eq_false_iff c).2 ⟨hlo, hhi⟩
  refine ⟨fun d hd => ?_, fun k t hsetup hk ht => ?_⟩
  · rw [exec_app_of_application a c p s happ]
    exact receive_of_fits s a c p hfits d hd
  · rw [exec_reg_of_application c k s hk hsetup happ] at ht
    cases ht
    have hentry : dtRead (giveResult .done (dtWrite c (.app k) s)) c = .app k :=
      (dtRead_dtWrite c c (.app k) s).trans (if_pos rfl)
    rw [exec_app_of_application a c p _ happ]
    exact ⟨_, receive_of_fits (giveResult .done (dtWrite c (.app k) s)) a c p hfits _ (by rw [hentry]; rfl), rfl⟩

/-- Settles O22: the phase and the room decide. -/
theorem rxpushAppendsOrOverflows : Obligations.RxpushAppendsOrOverflows := by
  unfold Obligations.RxpushAppendsOrOverflows
  intro chunk s
  exact ⟨exec_rxpush_of_setup chunk s,
    fun hrun hcap => exec_rxpush_of_room chunk s hrun ((roomFor_iff s chunk).2 hcap),
    fun hrun cap hcap h => exec_rxpush_of_no_room chunk s hrun (roomFor_eq_false s chunk cap hcap h)⟩

/-- Settles O36: the count decides, and a wake taken is one less. -/
theorem wakeAcqTakesAtMostOne : Obligations.WakeAcqTakesAtMostOne := by
  unfold Obligations.WakeAcqTakesAtMostOne
  intro s
  refine ⟨fun n h => ?_, fun h => if_pos h⟩
  change execWakeAcq s = _
  rw [execWakeAcq, if_neg (by omega), h]
  rfl

/-- Settles O38: `RST` is `resetBlock`, field by field. -/
theorem rstLeavesTheResetState : Obligations.RstLeavesTheResetState := by
  unfold Obligations.RstLeavesTheResetState
  intro s
  rfl

/-- Settles O39: the registers by definition, the table by `dtRead_resetOf`. -/
theorem resetStateIsAsTabled : Obligations.ResetStateIsAsTabled := by
  unfold Obligations.ResetStateIsAsTabled
  intro c
  refine ⟨rfl, rfl, rfl, rfl, rfl, rfl, rfl, rfl, dtRead_resetOf c _, dtRead_resetOf c _, dtRead_resetOf c _,
    dtRead_resetOf c _, fun x h0 h1 h2 h3 => ?_, rfl⟩
  rw [dtRead_resetOf, resetHandler_of_ne x h0 h1 h2 h3]

end Sys2Proof.Machine
end

section
/-! Requests by their operation select, who can be made to move, and why an agent's move is refused. -/

namespace Sys2Proof.Machine

/-! ### Requests by their select -/

/-- R95: the three selects that are not the command port's. -/
theorem onCommandPort_decodeRequest (r : Request) :
    onCommandPort (decodeRequest r) = true ↔ r.opsel.toNat ∉ [0xC, 0xD, 0xE] := by
  obtain ⟨⟨n⟩, args⟩ := r
  fin_cases n <;> simp [decodeRequest, onCommandPort]

/-- R63, R241: the requests that wait for the end of a pass. -/
theorem waitsForPass_decodeRequest (r : Request) :
    waitsForPass (decodeRequest r) = true ↔
      decodeRequest r = .rst ∨ (r.opsel.toNat ∈ [0x2, 0x3] ∧ r.args.flag = true) := by
  obtain ⟨⟨n⟩, args⟩ := r
  fin_cases n <;> simp [decodeRequest, waitsForPass]

theorem decodeRequest_eq_reservedF (r : Request) (h : decodeRequest r = .reservedF) : r.opsel = 0xF := by
  obtain ⟨⟨n⟩, args⟩ := r
  fin_cases n <;> simp_all [decodeRequest]

theorem opsel_mem_iff (b : BitVec 4) : b.toNat ∈ [0xC, 0xD, 0xE] ↔ b = 0xC ∨ b = 0xD ∨ b = 0xE := by
  revert b; decide

/-! ### The agents' moves -/

theorem callerStep_of_request (s : State) (r : Request) (rest : List Request) (hport : s.cmdPort = r :: rest) :
    callerStep s =
      if onCommandPort (decodeRequest r) then exec (decodeRequest r) { s with cmdPort := rest }
      else .refused .wrongPort := by
  rw [callerStep, hport]

theorem ioStep_of_pass (s : State) (h : s.pass = true) : ioStep s = exec .scan s := if_pos h

theorem ioStep_of_chunk (s : State) (chunk : List Byte) (rest : List (List Byte)) (hpass : s.pass = false)
    (hport : s.rxPort = chunk :: rest) : ioStep s = exec (.rxpush chunk) { s with rxPort := rest } := by
  rw [ioStep, hpass, hport]; rfl

/-! ### The schedule -/

/-- R62, R208 (e): whoever else is ready, some schedule grants the next step to a ready agent and is used up by it. -/
theorem exists_schedule (s : State) (a : Agent) (h : ready s a = true) :
    ∃ q, nextAgent { s with sched := q } = some (a, { s with sched := [] }) := by
  have hmem : a ∈ readyAgents s := (mem_readyAgents s a).2 h
  have hsame : ∀ q, readyAgents { s with sched := q } = readyAgents s := fun _ => rfl
  match hr : readyAgents s with
  | [] => rw [hr] at hmem; cases hmem
  | [b] =>
    rw [hr, List.mem_singleton] at hmem
    refine ⟨[], ?_⟩
    rw [nextAgent, hsame, hr, hmem]
  | b :: b' :: bs =>
    rw [hr] at hmem
    refine ⟨[a], ?_⟩
    rw [nextAgent, hsame, hr]
    simp only [granted, if_pos hmem]

theorem exists_schedule_step (s : State) (a : Agent) (h : ready s a = true) :
    ∃ q, step { s with sched := q } = act a { s with sched := [] } := by
  obtain ⟨q, hq⟩ := exists_schedule s a h
  exact ⟨q, by rw [step, stepOnce, hq]⟩

/-! ### Refusals -/

/-- R201: why an operation of the command port is refused. -/
theorem command_refused (i : Instr) (s : State) (e : Refusal) (hi : onCommandPort i = true)
    (h : exec i s = .refused e) : (e = .badOperand ∧ WellFormed s.cfg i = false) ∨ (e = .badOp ∧ i = .reservedF) := by
  cases i <;> simp only [onCommandPort, Bool.false_eq_true] at hi <;> simp only [exec] at h
  case verify f =>
    unfold execVerify at h
    split_ifs at h with he
    cases h
    exact .inl ⟨rfl, by rw [WellFormed, he]; rfl⟩
  case encf cmd addr fs send =>
    unfold execEncf at h
    split_ifs at h with hf
    cases h
    exact .inl ⟨rfl, by rw [WellFormed]; exact Bool.eq_false_iff.2 hf⟩
  case reg c k =>
    unfold execReg at h
    split_ifs at h with hk
    cases h
    exact .inl ⟨rfl, by rw [WellFormed]; exact decide_eq_false (Nat.not_lt.2 hk)⟩
  case reservedF => cases h; exact .inr ⟨rfl, rfl⟩
  case decf f n => unfold execDecf at h; split at h <;> cases h
  case lastfRd => unfold execLastfRd at h; split at h <;> cases h
  case wakeAcq => unfold execWakeAcq at h; split at h <;> cases h
  all_goals cases h

/-- R140, R201: `RXPUSH` is refused in `SETUP` only. -/
theorem rxpush_refused (chunk : List Byte) (s : State) (e : Refusal) (h : exec (.rxpush chunk) s = .refused e) :
    e = .notRunning ∧ s.phase = .setup := by
  simp only [exec, execRxpush] at h
  split_ifs at h with hp
  cases h
  exact ⟨rfl, hp⟩

/-- The caller's move is refused for its oldest request. -/
theorem callerStep_refused (s : State) (e : Refusal) (h : callerStep s = .refused e) :
    ∃ r rest, s.cmdPort = r :: rest ∧
      ((e = .badOperand ∧ WellFormed s.cfg (decodeRequest r) = false) ∨ (e = .badOp ∧ r.opsel = 0xF) ∨
       (e = .wrongPort ∧ (r.opsel = 0xC ∨ r.opsel = 0xD ∨ r.opsel = 0xE))) := by
  match hport : s.cmdPort with
  | [] => rw [callerStep, hport] at h; cases h
  | r :: rest =>
    refine ⟨r, rest, rfl, ?_⟩
    rw [callerStep_of_request s r rest hport] at h
    split_ifs at h with hcmd
    · obtain ⟨he, hwf⟩ | ⟨he, hi⟩ := command_refused _ _ e hcmd h
      · exact .inl ⟨he, hwf⟩
      · exact .inr (.inl ⟨he, decodeRequest_eq_reservedF r hi⟩)
    · cases h
      rw [onCommandPort_decodeRequest, not_not, opsel_mem_iff] at hcmd
      exact .inr (.inr ⟨rfl, hcmd⟩)

/-- The I/O context's move is refused for a chunk in `SETUP` only; an iteration never is. -/
theorem ioStep_refused (s : State) (e : Refusal) (h : ioStep s = .refused e) :
    e = .notRunning ∧ s.phase = .setup ∧ s.rxPort ≠ [] := by
  cases hpass : s.pass
  · match hport : s.rxPort with
    | [] => rw [ioStep, hpass, hport] at h; cases h
    | chunk :: rest =>
      rw [ioStep_of_chunk s chunk rest hpass hport] at h
      obtain ⟨he, hphase⟩ := rxpush_refused _ _ e h
      exact ⟨he, hphase, List.cons_ne_nil _ _⟩
  · rw [ioStep_of_pass s hpass] at h; cases h

end Sys2Proof.Machine
end

section
/-! The statements about one step. -/

namespace Sys2Proof.Machine

/-- Settles O41: the one ready agent acts, and its request is one of the command port's. -/
theorem stepRunsTheRequest : Obligations.StepRunsTheRequest := by
  unfold Obligations.StepRunsTheRequest
  intro s r rest hport hready hsel
  refine ⟨?_, rfl⟩
  rw [step_single s .caller hready]
  exact (callerStep_of_request s r rest hport).trans (if_pos ((onCommandPort_decodeRequest r).2 hsel))

/-- Settles O42: the one ready agent acts; the pass, else the port decides. -/
theorem stepRunsTheIoContext : Obligations.StepRunsTheIoContext := by
  unfold Obligations.StepRunsTheIoContext
  intro s
  refine ⟨fun hready hpass => ?_, fun chunk rest hready hpass hport => ?_, fun r rest hready hport hsel => ?_⟩ <;>
    rw [step_single s _ hready]
  · exact ioStep_of_pass s hpass
  · exact ioStep_of_chunk s chunk rest hpass hport
  · refine (callerStep_of_request s r rest hport).trans (if_neg ?_)
    rw [onCommandPort_decodeRequest, not_not]
    exact hsel

/-- Settles O43: each line is one agent, and with no agent ready there is no move. -/
theorem stepServesTheOutsideLines : Obligations.StepServesTheOutsideLines := by
  unfold Obligations.StepServesTheOutsideLines
  intro s
  refine ⟨fun h => step_single s .resetInput h, fun h => step_single s .channelClose h, fun h => ?_⟩
  rw [step, stepOnce, (nextAgent_none s).2 h]

/-- Settles O44: each premise makes its agent ready, and the schedule that names it lets it move. -/
theorem anyReadyAgentMayMove : Obligations.AnyReadyAgentMayMove := by
  unfold Obligations.AnyReadyAgentMayMove
  intro s
  refine ⟨fun r rest hport hsel hlock => ?_, fun hpass => ?_, fun chunk rest hpass hport => ?_,
    fun hpass hline => ?_, fun hpass hline => ?_⟩
  · have hfree : (s.pass && waitsForPass (decodeRequest r)) = false := by
      rw [Bool.and_eq_false_imp, ← Bool.not_eq_true, waitsForPass_decodeRequest, not_or]
      exact hlock
    obtain ⟨q, hq⟩ := exists_schedule_step s .caller (by rw [ready, hport]; simp [hfree])
    refine ⟨q, hq.trans ?_⟩
    exact (callerStep_of_request { s with sched := [] } r rest hport).trans
      (if_pos ((onCommandPort_decodeRequest r).2 hsel))
  · obtain ⟨q, hq⟩ := exists_schedule_step s .io (by simp [ready, hpass])
    exact ⟨q, hq.trans (ioStep_of_pass { s with sched := [] } hpass)⟩
  · obtain ⟨q, hq⟩ := exists_schedule_step s .io (by simp [ready, hport])
    exact ⟨q, hq.trans (ioStep_of_chunk { s with sched := [] } chunk rest hpass hport)⟩
  · exact exists_schedule_step s .resetInput (by simp [ready, hpass, hline])
  · exact exists_schedule_step s .channelClose (by simp [ready, hpass, hline])

/-- Settles O54: the reset input and the close are never refused, and the other two agents for their causes. -/
theorem stepIsRefusedOnlyForCause : Obligations.StepIsRefusedOnlyForCause := by
  unfold Obligations.StepIsRefusedOnlyForCause
  intro s e h
  rw [step, stepOnce] at h
  split at h
  · cases h
  next a u hnext =>
    obtain ⟨-, q, g, rfl⟩ := nextAgent_some s u a hnext
    cases a with
    | caller => exact .inr (callerStep_refused (choose q g s) e h)
    | io => exact .inl (ioStep_refused (choose q g s) e h)
    | resetInput => cases h
    | channelClose => cases h

/-- Settles O48: no effect writes the build parameters. -/
theorem buildParametersNeverChange : Obligations.BuildParametersNeverChange := by
  unfold Obligations.BuildParametersNeverChange
  intro s t h
  cases effect_of_step s t h <;> rfl

/-- Settles O45: of the effects inside a pass only the dispatch writes the buffer, and it drops bytes at the front. -/
theorem passIsACriticalSection : Obligations.PassIsACriticalSection := by
  unfold Obligations.PassIsACriticalSection
  intro s t hrun hpass h
  have outside : s.pass ≠ false := by rw [hpass]; decide
  cases effect_of_step s t h with
  | transmitted _ _ _ _ _ _ hp => exact absurd hp outside
  | resetByRequest _ _ _ _ _ _ hp => exact absurd hp outside
  | appended _ _ _ _ _ hp => exact absurd hp outside
  | overflowed _ _ _ _ _ hp => exact absurd hp outside
  | resetByLine _ _ _ hp => exact absurd hp outside
  | closed _ _ _ hp => exact absurd hp outside
  | registered _ _ _ _ _ _ _ _ hsetup => rw [hrun] at hsetup; cases hsetup
  | locked => exact ⟨rfl, rfl, rfl, rfl, ⟨0, rfl⟩, rfl, rfl, rfl⟩
  | dispatched _ _ o n => exact ⟨rfl, rfl, hrun, rfl, ⟨o + n, rfl⟩, rfl, rfl, rfl⟩
  | _ => exact ⟨rfl, rfl, hrun, rfl, ⟨0, rfl⟩, rfl, rfl, rfl⟩

theorem resetServed_of_request (q : List Agent) (g : Nat) (r : Request) (rest : List Request) (s : State)
    (hport : s.cmdPort = r :: rest) (hrst : decodeRequest r = .rst) (hpass : s.pass = false) :
    ResetServed s (giveResult .done (resetBlock (takeRequest q g rest s))) :=
  ⟨hpass, .inl ⟨r, rest, hport, hrst, rfl⟩⟩

theorem resetServed_of_line (q : List Agent) (g : Nat) (s : State) (hline : s.rstPin = true) (hpass : s.pass = false) :
    ResetServed s (giveResult .done (resetBlock { choose q g s with rstPin := false })) :=
  ⟨hpass, .inr ⟨hline, rfl⟩⟩

/-- Settles O49: `REG` writes in `SETUP` only, so in `RUN` the resets alone write the table. -/
theorem tableIsFixedWhileRunning : Obligations.TableIsFixedWhileRunning := by
  unfold Obligations.TableIsFixedWhileRunning
  intro s t hrun h
  cases effect_of_step s t h with
  | registered _ _ _ _ _ _ _ _ hsetup => rw [hrun] at hsetup; cases hsetup
  | resetByRequest q g r rest hport hrst hpass =>
    exact .inr ⟨resetServed_of_request q g r rest s hport hrst hpass, rfl, rfl, rfl, rfl, rfl⟩
  | resetByLine q g hline hpass => exact .inr ⟨resetServed_of_line q g s hline hpass, rfl, rfl, rfl, rfl, rfl⟩
  | locked => exact .inl ⟨rfl, rfl⟩
  | _ => exact .inl ⟨hrun, rfl⟩

/-- R24: a code that a reset makes read otherwise is an application code, and it then reads as the default. -/
theorem application_of_reset_changes {s t : State} (hinv : Inv s) (c : Byte) (ht : t.dt = dtReset)
    (hne : dtRead t c ≠ dtRead s c) : isReservedCode c = false ∧ dtRead t c = .wrong := by
  have hreset : dtRead t c = resetHandler c :=
    (dtRead_congr (State.resetOf s.cfg) t ht c).trans (dtRead_resetOf s.cfg c)
  cases happ : isReservedCode c
  · exact ⟨rfl, hreset.trans (resetHandler_wrong c happ)⟩
  · exact absurd (hreset.trans (hinv.reserved c happ).symm) hne

/-- Settles O50: `REG` writes one entry, of an application code; a reset writes the reserved entries as they were. -/
theorem tableIsWrittenOnlyByRegistration : Obligations.TableIsWrittenOnlyByRegistration := by
  unfold Obligations.TableIsWrittenOnlyByRegistration
  intro s t c hinv h hne
  rw [← and_assoc, ← isReservedCode_eq_false_iff]
  cases effect_of_step s t h with
  | registered q g r rest x k hport hreg hsetup hindex happ =>
    have hread : dtRead (giveResult .done (dtWrite x (.app k) (takeRequest q g rest s))) c =
        if c = x then .app k else dtRead s c := dtRead_dtWrite x c (.app k) (takeRequest q g rest s)
    by_cases hc : c = x
    · rw [if_pos hc] at hread
      rw [hc] at hread ⊢
      exact ⟨happ, .inl ⟨r, rest, k, hport, rfl, hreg, hsetup, hindex, hread⟩⟩
    · rw [if_neg hc] at hread
      exact absurd hread hne
  | resetByRequest q g r rest hport hrst hpass =>
    obtain ⟨happ, hwrong⟩ := application_of_reset_changes hinv c rfl hne
    exact ⟨happ, .inr ⟨resetServed_of_request q g r rest s hport hrst hpass, rfl, rfl, hwrong⟩⟩
  | resetByLine q g hline hpass =>
    obtain ⟨happ, hwrong⟩ := application_of_reset_changes hinv c rfl hne
    exact ⟨happ, .inr ⟨resetServed_of_line q g s hline hpass, rfl, rfl, hwrong⟩⟩
  | _ => exact absurd rfl hne

/-- Settles O51: one effect dispatches, two reset; of the others three write the count. -/
theorem everyDispatchWakesOnce : Obligations.EveryDispatchWakesOnce := by
  unfold Obligations.EveryDispatchWakesOnce
  intro s t h
  cases effect_of_step s t h with
  | dispatched q g o n hpass hfind => exact .inr (.inl ⟨o, n, _, hpass, hfind, rfl, rfl, rfl, rfl⟩)
  | resetByRequest q g r rest hport hrst hpass =>
    exact .inr (.inr ⟨resetServed_of_request q g r rest s hport hrst hpass, rfl, rfl, rfl, rfl⟩)
  | resetByLine q g hline hpass => exact .inr (.inr ⟨resetServed_of_line q g s hline hpass, rfl, rfl, rfl, rfl⟩)
  | acquired q g r rest n hport hacq hcount =>
    exact .inl ⟨rfl, rfl, .inr (.inr ⟨r, rest, hport, rfl, .inl ⟨hacq, hcount.symm⟩⟩)⟩
  | drained q g r rest hport hdrain => exact .inl ⟨rfl, rfl, .inr (.inr ⟨r, rest, hport, rfl, .inr ⟨hdrain, rfl⟩⟩)⟩
  | closed q g hline => exact .inl ⟨rfl, rfl, .inr (.inl ⟨rfl, hline, rfl⟩)⟩
  | _ => exact .inl ⟨rfl, rfl, .inl rfl⟩

/-- Settles O52: the append, the dispatch and the resets are the effects that write the buffer. -/
theorem bufferChangesInThreeWays : Obligations.BufferChangesInThreeWays := by
  unfold Obligations.BufferChangesInThreeWays
  intro s t h
  cases effect_of_step s t h with
  | appended q g chunk rest hport hpass hphase => exact .inr (.inl ⟨chunk, rest, hpass, hphase, hport, rfl, rfl, rfl⟩)
  | dispatched q g o n hpass hfind => exact .inr (.inr (.inl ⟨o, n, _, hpass, hfind, rfl, rfl, rfl⟩))
  | resetByRequest q g r rest hport hrst hpass =>
    exact .inr (.inr (.inr ⟨resetServed_of_request q g r rest s hport hrst hpass, rfl, rfl⟩))
  | resetByLine q g hline hpass => exact .inr (.inr (.inr ⟨resetServed_of_line q g s hline hpass, rfl, rfl⟩))
  | _ => exact .inl rfl

/-- Settles O53: the encode with `send` set and the resets are the effects that write the frames handed over. -/
theorem transmissionsKeepIssueOrder : Obligations.TransmissionsKeepIssueOrder := by
  unfold Obligations.TransmissionsKeepIssueOrder
  intro s t h
  cases effect_of_step s t h with
  | transmitted q g r rest f hport hpass hflag hsel hvalid =>
    exact .inr (.inl ⟨f, r, rest, hpass, hport, rfl, hflag, hsel, rfl, rfl, hvalid⟩)
  | resetByRequest q g r rest hport hrst hpass =>
    exact .inr (.inr ⟨resetServed_of_request q g r rest s hport hrst hpass, rfl, rfl⟩)
  | resetByLine q g hline hpass => exact .inr (.inr ⟨resetServed_of_line q g s hline hpass, rfl, rfl⟩)
  | _ => exact .inl rfl

end Sys2Proof.Machine
end

section
/-! The boundary detector by its first stop: an offset with a plausible start that is complete, or that the policy `hold`
waits for. -/

namespace Sys2Proof

open Machine

/-- R142, R143: the detector does not go past offset `o`. -/
def StopsAt (c : Config) (b : List Byte) (o n : Nat) : Prop :=
  PlausibleAt c b o n ∧ (o + n ≤ b.length ∨ c.incompletePolicy = .hold)

/-- R142: the detector comes as far as `o` and no further. -/
def FirstStop (c : Config) (b : List Byte) (o n : Nat) : Prop :=
  StopsAt c b o n ∧ ∀ p m, p < o → ¬ StopsAt c b p m

theorem IncompletePolicy.ne_hold_iff (p : IncompletePolicy) : p ≠ .hold ↔ p = .skip := by cases p <;> simp

theorem not_stopsAt_iff (c : Config) (b : List Byte) (o n : Nat) :
    ¬ StopsAt c b o n ↔ (PlausibleAt c b o n → c.incompletePolicy = .skip ∧ b.length < o + n) := by
  rw [StopsAt, not_and, not_or, ← IncompletePolicy.ne_hold_iff, Nat.not_le]
  exact imp_congr_right fun _ => and_comm

theorem stopsAt_of_hold (c : Config) (b : List Byte) (o n : Nat) (h : c.incompletePolicy = .hold) :
    StopsAt c b o n ↔ PlausibleAt c b o n := by simp [StopsAt, h]

theorem stopsAt_cons (c : Config) (x : Byte) (r : List Byte) (o n : Nat) :
    StopsAt c (x :: r) (o + 1) n ↔ StopsAt c r o n := by
  have hlen : o + 1 + n ≤ (x :: r).length ↔ o + n ≤ r.length := by rw [List.length_cons]; omega
  rw [StopsAt, StopsAt, plausibleAt_cons, hlen]

theorem not_stopsAt_of_short (c : Config) (b : List Byte) (h : b.length < c.minLen) (o n : Nat) :
    ¬ StopsAt c b o n := by
  rintro ⟨⟨hl, -⟩, -⟩; omega

theorem findFrom_of_short (c : Config) (k : Nat) (b : List Byte) (h : b.length < c.minLen) :
    findFrom c k b = .none := by
  cases b with
  | nil => rfl
  | cons x r => rw [findFrom, if_pos h]

/-- `findFrom_cons` by stops: the head is the first stop, or the detector goes on after it. -/
theorem findFrom_head (c : Config) (k : Nat) (x : Byte) (r : List Byte) :
    (∃ n, StopsAt c (x :: r) 0 n ∧
      findFrom c k (x :: r) = if n ≤ r.length + 1 then .candidate k n else .hold k n) ∨
    ((∀ n, ¬ StopsAt c (x :: r) 0 n) ∧ findFrom c k (x :: r) = findFrom c (k + 1) r) := by
  have hlen (n : Nat) : 0 + n ≤ (x :: r).length ↔ n ≤ r.length + 1 := by rw [Nat.zero_add, List.length_cons]
  obtain ⟨hs, e⟩ | ⟨hno, e⟩ | ⟨n, hp, ⟨hl, e⟩ | ⟨hl, hpol, e⟩ | ⟨hl, hpol, e⟩⟩ := findFrom_cons c k x r
  · refine .inr ⟨not_stopsAt_of_short c _ (by simpa using hs) 0, ?_⟩
    rw [e, findFrom_of_short c _ r (by omega)]
  · exact .inr ⟨fun n h => hno n h.1, e⟩
  · exact .inl ⟨n, ⟨hp, .inl ((hlen n).2 hl)⟩, by rw [e, if_pos hl]⟩
  · exact .inl ⟨n, ⟨hp, .inr hpol⟩, by rw [e, if_neg (by omega)]⟩
  · refine .inr ⟨fun m hm => ?_, e⟩
    obtain ⟨hpm, hm | hm⟩ := hm
    · rw [plausibleAt_unique c _ 0 m n hpm hp, hlen] at hm
      omega
    · rw [hpol] at hm; cases hm

theorem findFrom_of_firstStop (c : Config) (b : List Byte) (k o n : Nat) (h : FirstStop c b o n) :
    findFrom c k b = if o + n ≤ b.length then .candidate (k + o) n else .hold (k + o) n := by
  induction b generalizing k o with
  | nil => exact absurd h.1 (not_stopsAt_of_short c [] (by have := c.five_le_minLen; simp; omega) o n)
  | cons x r ih =>
    obtain ⟨hstop, hfirst⟩ := h
    obtain ⟨m, hm, e⟩ | ⟨hno, e⟩ := findFrom_head c k x r
    · have ho : o = 0 := by
        by_contra hne
        exact hfirst 0 m (by omega) hm
      subst ho
      rw [e, plausibleAt_unique c _ 0 n m hstop.1 hm.1, Nat.zero_add, List.length_cons, Nat.add_zero k]
    · match o with
      | 0 => exact absurd hstop (hno n)
      | o + 1 =>
        rw [e, ih (k + 1) o ⟨(stopsAt_cons c x r o n).1 hstop,
          fun p m hp hs => hfirst (p + 1) m (by omega) ((stopsAt_cons c x r p m).2 hs)⟩]
        rw [show k + 1 + o = k + (o + 1) by omega, List.length_cons, show o + 1 + n = o + n + 1 by omega]
        simp only [Nat.add_le_add_iff_right]

theorem findFrom_of_noStop (c : Config) (b : List Byte) (k : Nat) (h : ∀ p m, ¬ StopsAt c b p m) :
    findFrom c k b = .none := by
  induction b generalizing k with
  | nil => rfl
  | cons x r ih =>
    obtain ⟨m, hm, -⟩ | ⟨-, e⟩ := findFrom_head c k x r
    · exact absurd hm (h 0 m)
    · rw [e, ih (k + 1) fun p m hs => h (p + 1) m ((stopsAt_cons c x r p m).2 hs)]

theorem firstStop_or_none (c : Config) (b : List Byte) :
    (∃ o n, FirstStop c b o n) ∨ ∀ p m, ¬ StopsAt c b p m := by
  classical
  by_cases h : ∃ o n, StopsAt c b o n
  · obtain ⟨n, hn⟩ := Nat.find_spec h
    exact .inl ⟨Nat.find h, n, hn, fun p m hp hs => Nat.find_min h hp ⟨m, hs⟩⟩
  · exact .inr fun p m hs => h ⟨p, m, hs⟩

theorem find_of_firstStop (c : Config) (b : List Byte) (o n : Nat) (h : FirstStop c b o n) :
    find c b = if o + n ≤ b.length then .candidate o n else .hold o n := by
  rw [find, findFrom_of_firstStop c b 0 o n h, Nat.zero_add]

/-- All that the detector can answer. -/
theorem find_cases (c : Config) (b : List Byte) :
    (∃ o n, FirstStop c b o n ∧ find c b = if o + n ≤ b.length then .candidate o n else .hold o n) ∨
    ((∀ p m, ¬ StopsAt c b p m) ∧ find c b = .none) := by
  obtain ⟨o, n, h⟩ | h := firstStop_or_none c b
  · exact .inl ⟨o, n, h, find_of_firstStop c b o n h⟩
  · exact .inr ⟨h, findFrom_of_noStop c b 0 h⟩

theorem find_eq_candidate_iff (c : Config) (b : List Byte) (o n : Nat) :
    find c b = .candidate o n ↔ FirstStop c b o n ∧ o + n ≤ b.length := by
  refine ⟨fun h => ?_, fun ⟨h, hl⟩ => by rw [find_of_firstStop c b o n h, if_pos hl]⟩
  obtain ⟨p, m, hs, e⟩ | ⟨-, e⟩ := find_cases c b <;> rw [h] at e
  · split_ifs at e with hl
    cases e; exact ⟨hs, hl⟩
  · cases e

theorem find_eq_hold_iff (c : Config) (b : List Byte) (o n : Nat) :
    find c b = .hold o n ↔ FirstStop c b o n ∧ b.length < o + n := by
  refine ⟨fun h => ?_, fun ⟨h, hl⟩ => by rw [find_of_firstStop c b o n h, if_neg (by omega)]⟩
  obtain ⟨p, m, hs, e⟩ | ⟨-, e⟩ := find_cases c b <;> rw [h] at e
  · split_ifs at e with hl
    cases e; exact ⟨hs, by omega⟩
  · cases e

theorem find_eq_none_iff (c : Config) (b : List Byte) : find c b = .none ↔ ∀ p m, ¬ StopsAt c b p m := by
  refine ⟨fun h => ?_, findFrom_of_noStop c b 0⟩
  obtain ⟨p, m, -, e⟩ | ⟨hno, -⟩ := find_cases c b
  · rw [h] at e
    split_ifs at e
  · exact hno

theorem find_nil (c : Config) : find c [] = .none := rfl

namespace Machine

/-- Settles O23: each answer says what the first stop is, and a stop is a plausible start not passed over. -/
theorem findTakesTheEarliestStart : Obligations.FindTakesTheEarliestStart := by
  unfold Obligations.FindTakesTheEarliestStart
  intro c b o n
  rw [find_eq_candidate_iff, find_eq_hold_iff, find_eq_none_iff]
  simp only [FirstStop, not_stopsAt_iff]
  refine ⟨⟨fun ⟨⟨hs, hfirst⟩, hl⟩ => ⟨hs.1, hl, hfirst⟩, fun ⟨hp, hl, hfirst⟩ => ⟨⟨⟨hp, .inl hl⟩, hfirst⟩, hl⟩⟩,
    ⟨fun ⟨⟨⟨hp, hpol⟩, hfirst⟩, hl⟩ => ?_, fun ⟨hpol, hp, hl, hfirst⟩ => ?_⟩, trivial⟩
  · have hhold : c.incompletePolicy = .hold := hpol.resolve_left (by omega)
    refine ⟨hhold, hp, hl, fun p m hlt hpm => ?_⟩
    rw [(hfirst p m hlt hpm).1] at hhold; cases hhold
  · exact ⟨⟨⟨hp, .inr hpol⟩, fun p m hlt hpm => absurd hpm (hfirst p m hlt)⟩, hl⟩

end Machine

end Sys2Proof
end

section
/-! One iteration, and the frame it runs. -/

namespace Sys2Proof.Machine

theorem exec_scan (s : State) : exec .scan s = .next (giveResult (.scan (find s.cfg s.rxbuf)) (scanOnce s)) := rfl

theorem exec_scan_of_candidate (s : State) (o n : Nat) (h : find s.cfg s.rxbuf = .candidate o n) :
    exec .scan s =
      .next (giveResult (.scan (.candidate o n))
        (dropPrefix (o + n) (takeDispatch (slice s.rxbuf o n) (verifies s.cfg (slice s.rxbuf o n)) s))) := by
  rw [exec_scan, scanOnce_of_candidate s o n h, h]

theorem exec_scan_of_no_candidate (s : State) (h : ∀ o n, find s.cfg s.rxbuf ≠ .candidate o n) :
    exec .scan s = .next (giveResult (.scan (find s.cfg s.rxbuf)) (endPass s)) := by
  rw [exec_scan, scanOnce_of_no_candidate s h]

theorem verifies_eq_decide (c : Config) (f : List Byte) :
    verifies c f = decide (f.getLast? = some (ck c f.dropLast)) := by
  rw [Bool.eq_iff_iff, verifies_iff, decide_eq_true_eq]

/-- R173, R180 to R187: a class does what the dispatch of its verified frame does. -/
theorem exec_classify (a cmd : Byte) (p : List Byte) (s : State) : exec (classify a cmd p) s = receive a cmd p s := by
  obtain ⟨rfl, e⟩ | ⟨rfl, e⟩ | ⟨rfl, e⟩ | ⟨rfl, e⟩ | ⟨rfl, e⟩ | ⟨rfl, e⟩ | ⟨rfl, e⟩ | ⟨happ, e⟩ := classify_cases a cmd p <;>
    rw [e]
  case inr.inr.inr.inr.inr.inr.inr => exact exec_app_of_application a cmd p s happ
  all_goals rfl

/-- A valid frame, run as the class of its fields, is dispatched whole. -/
theorem exec_classify_fields (f : List Byte) (s : State) (h : ValidFrame s.cfg s.cfg.markDec f) :
    exec (classify (frameAddress s.cfg f) (frameCommand s.cfg f) (framePayload s.cfg f)) s =
      .next (takeDispatch f true s) := by
  obtain ⟨hfits, -⟩ := (frameFieldsOk_iff _ _ _).1 (frameFieldsOk_fields s.cfg f h.1)
  rw [exec_classify, receive, if_pos hfits, rxFrame_fields s.cfg f h]

end Sys2Proof.Machine
end

section
/-! The statements of 41_resync.md section 3 and the first of section 4. -/

namespace Sys2Proof.Machine

/-- Settles O24: the slice of a candidate is long enough to dispatch, and the drop writes the buffer only. -/
theorem scanDispatchesAndDrops : Obligations.ScanDispatchesAndDrops := by
  unfold Obligations.ScanDispatchesAndDrops
  intro s
  refine ⟨fun o n f t hfind hf ht => ?_, exec_scan_of_no_candidate s, _, exec_scan s⟩
  have hslice : f = slice s.rxbuf o n := hf
  obtain ⟨hmin, -⟩ := framed_of_candidate _ _ _ _ hfind
  rw [← verifies_eq_decide, hslice, exec_dispatch_of_minLen _ _ _ hmin] at ht
  cases ht
  rw [exec_scan_of_candidate s o n hfind]
  rfl

/-- Settles O25: the slice is framed, so only its checksum decides how it decodes and how it is dispatched. -/
theorem scanRunsTheDecodedFrame : Obligations.ScanRunsTheDecodedFrame := by
  unfold Obligations.ScanRunsTheDecodedFrame
  intro s o n hfind
  have hframed := framed_of_candidate _ _ _ _ hfind
  refine ⟨fun i hi => ?_, fun e he => ?_⟩
  · obtain ⟨hvalid, rfl⟩ := (decodeFrame_eq_instr_iff _ _ i).1 hi
    refine ⟨(wellFormed_classify _ _ _ _).trans (frameFieldsOk_fields _ _ hframed), _,
      exec_classify_fields _ s hvalid, ?_⟩
    rw [exec_scan_of_candidate s o n hfind, (verifies_iff _ _).2 hvalid.2]
    rfl
  · rw [decode, decodeFrame_of_framed _ _ hframed] at he
    split_ifs at he with hv
    cases he
    refine ⟨rfl, _, exec_dispatch_of_minLen _ false s hframed.1, rfl, ?_⟩
    rw [exec_scan_of_candidate s o n hfind, Bool.eq_false_iff.2 hv]
    rfl

/-- Settles O26: a candidate is at least `MIN_LEN` bytes of the buffer. -/
theorem iterationMakesProgress : Obligations.IterationMakesProgress := by
  unfold Obligations.IterationMakesProgress
  intro s t h
  rw [exec_scan] at h
  cases h
  obtain ⟨o, n, -, hn, hl, e⟩ | ⟨-, e⟩ := scanOnce_cases s <;> rw [e]
  · refine .inl ⟨?_, List.length_append, rfl⟩
    simp only [giveResult_rxbuf, dropPrefix_rxbuf, takeDispatch_rxbuf, List.length_drop]
    omega
  · exact .inr ⟨rfl, rfl, rfl⟩

/-- R149: at a live first offset with all 255 bytes that a frame can have stands a complete frame. -/
theorem candidate_of_live_head (c : Config) (b : List Byte) (hlive : ¬ Dead c b 0) (hlen : 255 ≤ b.length) :
    ∃ n, find c b = .candidate 0 n := by
  match b, hlen with
  | x0 :: x1 :: x2 :: r, hlen =>
    have h0 : x0 = c.markDec.1 := by_contra fun h => hlive (.inl ⟨x0, rfl, h⟩)
    have h1 : x1 = c.markDec.2 := by_contra fun h => hlive (.inr (.inl ⟨x1, rfl, h⟩))
    have h2 : c.minLen ≤ x2.toNat := by_contra fun h => hlive (.inr (.inr ⟨x2, rfl, by omega⟩))
    have hbyte := x2.isLt
    refine ⟨x2.toNat, (find_eq_candidate_iff _ _ _ _).2 ⟨⟨⟨⟨by omega, h0, h1, rfl, h2⟩, .inl ?_⟩, ?_⟩, ?_⟩⟩
    · omega
    · intro p m hp; omega
    · omega

/-- Settles O35: a longer buffer would hold a candidate, which the invariant excludes outside a pass. -/
theorem liveHeadBoundsTheBuffer : Obligations.LiveHeadBoundsTheBuffer := by
  unfold Obligations.LiveHeadBoundsTheBuffer
  intro s hinv hpass hlive
  by_contra hlong
  obtain ⟨n, hfind⟩ := candidate_of_live_head s.cfg s.rxbuf hlive (by omega)
  exact hinv.passDone hpass 0 n hfind

end Sys2Proof.Machine
end

section
/-! A pass, iteration by iteration, and a whole push of one frame. -/

namespace Sys2Proof

open Machine

/-- R142: a whole frame after bytes in which no marker starts is the first candidate. -/
theorem find_of_one_frame (c : Config) (g f : List Byte) (hf : Framed c c.markDec f)
    (hg : ∀ o, o < g.length → ¬ ((g ++ f).getD o 0 = c.markDec.1 ∧ (g ++ f).getD (o + 1) 0 = c.markDec.2)) :
    find c (g ++ f) = .candidate g.length f.length := by
  have hat (i : Nat) : (g ++ f).getD (g.length + i) 0 = f.getD i 0 := by
    rw [List.getD_append_right _ _ _ _ (by omega), Nat.add_sub_cancel_left]
  have hl : g.length + f.length ≤ (g ++ f).length := List.length_append.ge
  obtain ⟨hmin, h0, h1, h2⟩ := hf
  refine (find_eq_candidate_iff _ _ _ _).2 ⟨⟨⟨⟨by omega, ?_, ?_, ?_, hmin⟩, .inl hl⟩, ?_⟩, hl⟩
  · exact (hat 0).trans h0
  · exact (hat 1).trans h1
  · rw [hat 2]; exact h2
  · rintro p m hp ⟨⟨-, hm0, hm1, -⟩, -⟩
    exact hg p hp ⟨hm0, hm1⟩

namespace Machine

theorem runPass_of_candidate (k : Nat) (s : State) (o n : Nat) (hpass : s.pass = true)
    (h : find s.cfg s.rxbuf = .candidate o n) :
    runPass (k + 1) s =
      runPass k (giveResult (.scan (.candidate o n))
        (dropPrefix (o + n) (takeDispatch (slice s.rxbuf o n) (verifies s.cfg (slice s.rxbuf o n)) s))) := by
  rw [runPass_succ k s hpass, scanOnce_of_candidate s o n h, h]

theorem runPass_of_no_candidate (k : Nat) (s : State) (hpass : s.pass = true)
    (h : ∀ o n, find s.cfg s.rxbuf ≠ .candidate o n) :
    runPass (k + 1) s = giveResult (.scan (find s.cfg s.rxbuf)) (endPass s) := by
  rw [runPass_succ k s hpass, scanOnce_of_no_candidate s h, runPass_of_ended _ _ rfl]

theorem runPass_of_none (k : Nat) (s : State) (hpass : s.pass = true) (h : find s.cfg s.rxbuf = .none) :
    runPass (k + 1) s = giveResult (.scan .none) (endPass s) := by
  rw [runPass_of_no_candidate k s hpass (by simp [h]), h]

theorem slice_append_right (g f : List Byte) : slice (g ++ f) g.length f.length = f := by simp [slice]

/-- What a push of one frame, and of bytes before it that are none, leaves of a block with the buffer empty. -/
def oneDispatch (off : Nat) (f : List Byte) (d : Dispatched) (s : State) : State :=
  { s with lastf := some d, displog := s.displog ++ [d], wakeCnt := s.wakeCnt + 1,
           results := s.results ++ [.done, .scan (.candidate off f.length), .scan .none] }

/-- A pass over one frame dispatches it, finds nothing more and ends. -/
theorem runPass_one_frame (k : Nat) (g f : List Byte) (s : State) (hpass : s.pass = true) (hbuf : s.rxbuf = g ++ f)
    (hf : Framed s.cfg s.cfg.markDec f)
    (hg : ∀ o, o < g.length → ¬ ((g ++ f).getD o 0 = s.cfg.markDec.1 ∧ (g ++ f).getD (o + 1) 0 = s.cfg.markDec.2)) :
    runPass (k + 2) s =
      giveResult (.scan .none) (endPass (giveResult (.scan (.candidate g.length f.length))
        (dropPrefix (g.length + f.length) (takeDispatch f (verifies s.cfg f) s)))) := by
  have hempty : s.rxbuf.drop (g.length + f.length) = [] := by rw [hbuf, ← List.length_append, List.drop_length]
  have hfind := find_of_one_frame s.cfg g f hf hg
  rw [← hbuf] at hfind
  rw [runPass_of_candidate (k + 1) s _ _ hpass hfind, hbuf, slice_append_right]
  exact runPass_of_none k _ hpass ((congrArg (find s.cfg) hempty).trans (find_nil s.cfg))

/-- R146: a whole push of one frame into the empty buffer. -/
theorem pushWhole_one_frame (g f : List Byte) (s : State) (hrun : s.phase = .run) (hpass : s.pass = false)
    (hbuf : s.rxbuf = []) (hcap : ∀ cap, s.cfg.rxbufCap = some cap → g.length + f.length ≤ cap)
    (hf : Framed s.cfg s.cfg.markDec f)
    (hg : ∀ o, o < g.length → ¬ ((g ++ f).getD o 0 = s.cfg.markDec.1 ∧ (g ++ f).getD (o + 1) 0 = s.cfg.markDec.2))
    (d : Dispatched) (hd : d = ⟨selectHandler s f (verifies s.cfg f), f, verifies s.cfg f⟩) :
    pushWhole (g ++ f) s = .next (oneDispatch g.length f d s) := by
  have hroom : roomFor s (g ++ f) = true := (roomFor_iff _ _).2 fun cap hc => by
    rw [hbuf, List.length_nil, Nat.zero_add, List.length_append]; exact hcap cap hc
  have hbound : passBound (giveResult .done (appendChunk (g ++ f) s)) =
      (g.length + f.length - s.cfg.minLen) / s.cfg.minLen + 2 := by
    have hmin := hf.1
    have := s.cfg.five_le_minLen
    rw [passBound, giveResult_cfg, giveResult_rxbuf, appendChunk_cfg, appendChunk_rxbuf, hbuf, List.nil_append,
      List.length_append, Nat.div_eq_sub_div (by omega) (by omega)]
  rw [pushWhole_of_room _ _ hrun hroom, hbound,
    runPass_one_frame _ g f (giveResult .done (appendChunk (g ++ f) s)) rfl (by simp [hbuf]) hf hg, hd]
  simp [oneDispatch, giveResult, endPass, dropPrefix, takeDispatch, wakeRelease, appendChunk, selectHandler, dtRead, hbuf,
    hpass]

/-- R115 (a), (a'): on a sequence with a last byte the verdict is whether the checksum of the whole is 0. -/
theorem verifies_iff_ck_eq_zero (c : Config) (f : List Byte) (h : f ≠ []) : verifies c f = true ↔ ck c f = 0 := by
  obtain ⟨g, b, rfl⟩ := (List.eq_nil_or_concat' f).resolve_left h
  rw [verifies_append, beq_iff_eq, ck_append_byte_eq_zero_iff]

/-- R88: of a framed sequence a byte after the length byte is not looked at. -/
theorem framed_replace (c : Config) (m : Byte × Byte) (p q : List Byte) (x y : Byte) (hp : 3 ≤ p.length)
    (h : Framed c m (p ++ [x] ++ q)) : Framed c m (p ++ [y] ++ q) := by
  have hlen (z : Byte) : (p ++ [z] ++ q).length = p.length + 1 + q.length := by simp; omega
  have hhead (z : Byte) (i : Nat) (hi : i < 3) : (p ++ [z] ++ q).getD i 0 = p.getD i 0 := by
    rw [List.append_assoc, List.getD_append _ _ _ _ (by omega)]
  rw [Framed, hlen, hhead x 0 (by omega), hhead x 1 (by omega), hhead x 2 (by omega)] at h
  rwa [Framed, hlen, hhead y 0 (by omega), hhead y 1 (by omega), hhead y 2 (by omega)]

end Machine

end Sys2Proof
end

section
/-! The statements of 41_resync.md section 4 on one frame in one push, and on a push of nothing. -/

namespace Sys2Proof.Machine

/-- Settles O28: the invariant leaves no candidate outside a pass, so the pass that the push opens ends at once. -/
theorem emptyPushChangesNothing : Obligations.EmptyPushChangesNothing := by
  unfold Obligations.EmptyPushChangesNothing
  intro s hrun hinv hpass
  have hroom : roomFor s [] = true := (roomFor_iff _ _).2 ((Memory.wf_iff _ _).1 hinv.withinCap)
  rw [pushWhole_of_room _ _ hrun hroom, passBound,
    runPass_of_no_candidate _ (giveResult .done (appendChunk [] s)) rfl (by simpa using hinv.passDone hpass)]
  simp [giveResult, endPass, appendChunk, hpass]

/-- Settles O29: the frame verifies, so its handler is its command's. -/
theorem garbagePrefixIsRecovered : Obligations.GarbagePrefixIsRecovered := by
  unfold Obligations.GarbagePrefixIsRecovered
  intro g f s hrun hpass hbuf hcap hvalid hg d hd
  refine pushWhole_one_frame g f s hrun hpass hbuf hcap hvalid.1 hg d ?_
  rw [(verifies_iff _ _).2 hvalid.2, hd]
  rfl

/-- Settles O32: the frame does not verify, so its handler is the CRC-error handler. -/
theorem failedChecksumIsReportedOnce : Obligations.FailedChecksumIsReportedOnce := by
  unfold Obligations.FailedChecksumIsReportedOnce
  intro g s hrun hpass hbuf hcap hframed hck d hd
  refine pushWhole_one_frame [] g s hrun hpass hbuf (by simpa using hcap) hframed (by simp) d ?_
  rw [Bool.eq_false_iff.2 ((verifies_iff _ _).not.2 hck), hd]
  rfl

/-- Settles O33: the flip leaves the sequence framed and moves its checksum away from 0. -/
theorem flippedBitIsReportedOnce : Obligations.FlippedBitIsReportedOnce := by
  unfold Obligations.FlippedBitIsReportedOnce
  intro p q b k s hrun hpass hbuf hcap hvalid hp
  have hframed := framed_replace _ _ p q b (b ^^^ BitVec.twoPow 8 k) hp hvalid.1
  have hzero : ck s.cfg (p ++ [b] ++ q) = 0 :=
    (verifies_iff_ck_eq_zero _ _ (by simp)).1 ((verifies_iff _ _).2 hvalid.2)
  have hbad : ¬ verifies s.cfg (p ++ [b ^^^ BitVec.twoPow 8 k] ++ q) = true := by
    rw [verifies_iff_ck_eq_zero _ _ (by simp), ← hzero]
    exact checksumSeesOneFlippedBit s.cfg p q b k
  rw [verifies_iff] at hbad
  refine ⟨_, failedChecksumIsReportedOnce _ s hrun hpass hbuf (fun cap hc => ?_) hframed hbad _ rfl, rfl, hbuf, rfl⟩
  have := hcap cap hc
  simp only [List.length_append, List.length_singleton]
  omega

end Sys2Proof.Machine
end

section
/-! A pass without its result log and without its bound: `Drains`, which every pass long enough to end follows. The laws
that compare two passes compare their drains. -/

namespace Sys2Proof.Machine

/-- The state without the result log. -/
def unlogged (s : State) : State := { s with results := [] }

/-- R144: the candidate of `n` bytes at offset `o` is dispatched and dropped with all before it. -/
def takeCandidate (o n : Nat) (s : State) : State :=
  dropPrefix (o + n) (takeDispatch (slice s.rxbuf o n) (verifies s.cfg (slice s.rxbuf o n)) s)

@[simp] theorem takeCandidate_cfg (o n : Nat) (s : State) : (takeCandidate o n s).cfg = s.cfg := rfl
@[simp] theorem takeCandidate_rxbuf (o n : Nat) (s : State) : (takeCandidate o n s).rxbuf = s.rxbuf.drop (o + n) := rfl
@[simp] theorem takeCandidate_displog_length (o n : Nat) (s : State) :
    (takeCandidate o n s).displog.length = s.displog.length + 1 := List.length_append

/-- R144, R146: the iterations of a pass from `s` to its end leave `t`. -/
inductive Drains : State → State → Prop
  | ends (s : State) (hnone : ∀ o n, find s.cfg s.rxbuf ≠ .candidate o n) : Drains s (endPass s)
  | dispatch (s t : State) (o n : Nat) (hfind : find s.cfg s.rxbuf = .candidate o n)
      (hrest : Drains (takeCandidate o n s) t) : Drains s t

theorem Drains.unique {s t u : State} (ht : Drains s t) (hu : Drains s u) : t = u := by
  induction ht with
  | ends s hnone =>
    cases hu with
    | ends => rfl
    | dispatch _ _ o n hfind => exact absurd hfind (hnone o n)
  | dispatch s t o n hfind _ ih =>
    cases hu with
    | ends _ hnone => exact absurd hfind (hnone o n)
    | dispatch _ _ o' n' hfind' hrest =>
      rw [hfind] at hfind'
      cases hfind'
      exact ih hrest

theorem Drains.frame {s t : State} (h : Drains s t) : t.cfg = s.cfg ∧ t.phase = s.phase ∧ t.flt = s.flt := by
  induction h with
  | ends => exact ⟨rfl, rfl, rfl⟩
  | dispatch _ _ _ _ _ _ ih => exact ih

theorem Drains.ended {s t : State} (h : Drains s t) :
    t.pass = false ∧ ∀ o n, find t.cfg t.rxbuf ≠ .candidate o n := by
  induction h with
  | ends s hnone => exact ⟨rfl, hnone⟩
  | dispatch _ _ _ _ _ _ ih => exact ih

/-- R146 (a): a dispatched candidate takes a whole minimum-length frame off the buffer. -/
theorem length_drop_candidate (c : Config) (b : List Byte) (o n : Nat) (h : find c b = .candidate o n) :
    (b.drop (o + n)).length ≤ b.length ∧ (b.drop (o + n)).length / c.minLen + 1 ≤ b.length / c.minLen := by
  obtain ⟨⟨-, -, -, -, hn⟩, hl⟩ := find_candidate c b o n h
  have hpos := c.five_le_minLen
  rw [List.length_drop]
  refine ⟨by omega, ?_⟩
  rw [← Nat.add_div_right _ (by omega)]
  exact Nat.div_le_div_right (by omega)

/-- R146 (b), (d). -/
theorem Drains.bounds {s t : State} (h : Drains s t) :
    t.rxbuf.length ≤ s.rxbuf.length ∧ t.displog.length ≤ s.displog.length + s.rxbuf.length / s.cfg.minLen := by
  induction h with
  | ends => exact ⟨le_rfl, Nat.le_add_right _ _⟩
  | dispatch s t o n hfind _ ih =>
    obtain ⟨hlen, hlog⟩ := ih
    obtain ⟨hshort, hfew⟩ := length_drop_candidate _ _ o n hfind
    simp only [takeCandidate_rxbuf, takeCandidate_cfg, takeCandidate_displog_length] at hlen hlog
    omega

/-- A pass with an iteration more than there are whole minimum-length frames comes to its end. -/
theorem drains_runPass (k : Nat) (s : State) (hpass : s.pass = true) (hk : s.rxbuf.length / s.cfg.minLen < k) :
    Drains (unlogged s) (unlogged (runPass k s)) := by
  induction k generalizing s with
  | zero => cases hk
  | succ k ih =>
    obtain ⟨o, n, hfind⟩ | hnone := candidate_or_not s.cfg s.rxbuf
    · rw [runPass_of_candidate k s o n hpass hfind]
      have hfew := (length_drop_candidate _ _ o n hfind).2
      refine .dispatch _ _ o n hfind
        (ih (giveResult (.scan (.candidate o n)) (takeCandidate o n s)) hpass ?_)
      rw [giveResult_rxbuf, giveResult_cfg, takeCandidate_rxbuf, takeCandidate_cfg]
      omega
    · rw [runPass_of_no_candidate k s hpass hnone]
      exact .ends (unlogged s) hnone

/-- R140: a whole push with room drains the buffer with the chunk appended. -/
theorem pushWhole_drains (chunk : List Byte) (s : State) (hrun : s.phase = .run) (hroom : roomFor s chunk = true) :
    ∃ t, pushWhole chunk s = .next t ∧ Drains (appendChunk chunk (unlogged s)) (unlogged t) :=
  ⟨_, pushWhole_of_room chunk s hrun hroom, drains_runPass _ (giveResult .done (appendChunk chunk s)) rfl
    (Nat.lt_succ_self _)⟩

/-! ### More bytes -/

theorem plausibleAt_append (c : Config) (x y : List Byte) (o n : Nat) (h : o + c.minLen ≤ x.length) :
    PlausibleAt c (x ++ y) o n ↔ PlausibleAt c x o n := by
  have hpos := c.five_le_minLen
  rw [PlausibleAt, PlausibleAt, List.getD_append _ _ _ _ (by omega), List.getD_append _ _ _ _ (by omega),
    List.getD_append _ _ _ _ (by omega), List.length_append]
  exact and_congr_left fun _ => ⟨fun _ => h, fun _ => by omega⟩

/-- R148: under `hold` bytes that come later do not change which frame is found first. -/
theorem find_append_of_hold (c : Config) (x y : List Byte) (o n : Nat) (hpol : c.incompletePolicy = .hold)
    (h : find c x = .candidate o n) : find c (x ++ y) = .candidate o n := by
  rw [find_eq_candidate_iff] at h ⊢
  obtain ⟨⟨hstop, hfirst⟩, hl⟩ := h
  simp only [stopsAt_of_hold _ _ _ _ hpol] at hstop hfirst
  have hin : o + c.minLen ≤ x.length := hstop.1
  simp only [FirstStop, stopsAt_of_hold _ _ _ _ hpol, List.length_append]
  refine ⟨⟨(plausibleAt_append c x y o n hin).2 hstop, fun p m hp hs => ?_⟩, by omega⟩
  exact hfirst p m hp ((plausibleAt_append c x y p m (by omega)).1 hs)

theorem slice_append_left (x y : List Byte) (o n : Nat) (h : o + n ≤ x.length) : slice (x ++ y) o n = slice x o n := by
  rw [slice, slice, List.drop_append_of_le_length (by omega), List.take_append_of_le_length (by simp; omega)]

/-- Appending commutes with dispatching a candidate that is wholly there. -/
theorem takeDispatch_appendChunk (f : List Byte) (ok : Bool) (y : List Byte) (s : State) :
    takeDispatch f ok (appendChunk y s) = appendChunk y (takeDispatch f ok s) := rfl

theorem dropPrefix_appendChunk (n : Nat) (y : List Byte) (s : State) (h : n ≤ s.rxbuf.length) :
    dropPrefix n (appendChunk y s) = appendChunk y (dropPrefix n s) := by
  rw [dropPrefix, appendChunk_rxbuf, List.drop_append_of_le_length h]; rfl

theorem takeCandidate_appendChunk (y : List Byte) (s : State) (o n : Nat) (h : o + n ≤ s.rxbuf.length) :
    takeCandidate o n (appendChunk y s) = appendChunk y (takeCandidate o n s) := by
  rw [takeCandidate, takeCandidate, appendChunk_rxbuf, appendChunk_cfg, slice_append_left _ _ _ _ h,
    takeDispatch_appendChunk]
  exact dropPrefix_appendChunk _ _ _ h

/-- R148: under `hold`, draining before the next bytes come and draining with them there end alike. -/
theorem Drains.append {s t u : State} (h : Drains s t) (y : List Byte) (hpol : s.cfg.incompletePolicy = .hold)
    (hu : Drains (appendChunk y t) u) : Drains (appendChunk y s) u := by
  induction h with
  | ends => exact hu
  | dispatch s t o n hfind _ ih =>
    refine .dispatch _ _ o n (find_append_of_hold _ _ y o n hpol hfind) ?_
    have hl := (find_candidate _ _ _ _ hfind).2
    rw [takeCandidate_appendChunk y s o n hl]
    exact ih hpol hu

/-! ### Dead offsets -/

/-- R149: the first `k` offsets of `b` are dead. -/
def DeadBelow (c : Config) (b : List Byte) (k : Nat) : Prop := k ≤ b.length ∧ ∀ o, o < k → Dead c b o

theorem deadBelow_zero (c : Config) (b : List Byte) : DeadBelow c b 0 := ⟨Nat.zero_le _, fun _ h => by cases h⟩

theorem Dead.append {c : Config} {b : List Byte} {o : Nat} (h : Dead c b o) (y : List Byte) : Dead c (b ++ y) o := by
  have keep (i : Nat) (x : Byte) (hx : b[i]? = some x) : (b ++ y)[i]? = some x := by
    rw [List.getElem?_append_left (List.getElem?_eq_some_iff.1 hx).1, hx]
  obtain ⟨x, hx, hne⟩ | ⟨x, hx, hne⟩ | ⟨x, hx, hlt⟩ := h
  · exact .inl ⟨x, keep _ x hx, hne⟩
  · exact .inr (.inl ⟨x, keep _ x hx, hne⟩)
  · exact .inr (.inr ⟨x, keep _ x hx, hlt⟩)

theorem DeadBelow.append {c : Config} {b : List Byte} {k : Nat} (h : DeadBelow c b k) (y : List Byte) :
    DeadBelow c (b ++ y) k := by
  refine ⟨?_, fun o ho => (h.2 o ho).append y⟩
  have := h.1
  rw [List.length_append]; omega

theorem Dead.not_stopsAt {c : Config} {b : List Byte} {o : Nat} (h : Dead c b o) (n : Nat) : ¬ StopsAt c b o n := by
  have read (i : Nat) (x : Byte) (hx : b[i]? = some x) : b.getD i 0 = x := by
    rw [List.getD_eq_getElem?_getD, hx]; rfl
  rintro ⟨⟨-, h0, h1, h2, hn⟩, -⟩
  obtain ⟨x, hx, hne⟩ | ⟨x, hx, hne⟩ | ⟨x, hx, hlt⟩ := h
  · exact hne (read _ x hx ▸ h0)
  · exact hne (read _ x hx ▸ h1)
  · rw [read _ x hx] at h2; omega

theorem stopsAt_drop (c : Config) (b : List Byte) (k o n : Nat) (hk : k ≤ b.length) :
    StopsAt c (b.drop k) o n ↔ StopsAt c b (k + o) n := by
  induction k generalizing b with
  | zero => rw [List.drop_zero, Nat.zero_add]
  | succ k ih =>
    match b, hk with
    | x :: r, hk =>
      rw [List.drop_succ_cons, ih r (by simpa using hk), ← stopsAt_cons c x r, Nat.add_right_comm]

/-- R149: a candidate starts after the dead offsets, and is found alike without them. -/
theorem find_drop_dead (c : Config) (b : List Byte) (k o n : Nat) (hdead : DeadBelow c b k) :
    find c (b.drop k) = .candidate o n ↔ find c b = .candidate (k + o) n := by
  have hk := hdead.1
  rw [find_eq_candidate_iff, find_eq_candidate_iff, FirstStop, FirstStop, stopsAt_drop c b k o n hk, List.length_drop]
  refine ⟨fun ⟨⟨hs, hfirst⟩, hl⟩ => ⟨⟨hs, fun p m hp hpm => ?_⟩, by omega⟩,
    fun ⟨⟨hs, hfirst⟩, hl⟩ => ⟨⟨hs, fun p m hp hpm => ?_⟩, by omega⟩⟩
  · by_cases hpk : p < k
    · exact (hdead.2 p hpk).not_stopsAt m hpm
    · refine hfirst (p - k) m (by omega) ((stopsAt_drop c b k _ m hk).2 ?_)
      rwa [Nat.add_sub_cancel' (by omega)]
  · exact hfirst (k + p) m (by omega) ((stopsAt_drop c b k p m hk).1 hpm)

theorem le_of_find_of_dead (c : Config) (b : List Byte) (k o n : Nat) (hdead : DeadBelow c b k)
    (h : find c b = .candidate o n) : k ≤ o := by
  by_contra hlt
  exact (hdead.2 o (by omega)).not_stopsAt n ((find_eq_candidate_iff c b o n).1 h).1.1

theorem slice_drop (b : List Byte) (k o n : Nat) : slice (b.drop k) o n = slice b (k + o) n := by
  rw [slice, slice, List.drop_drop]

theorem takeDispatch_dropPrefix (f : List Byte) (ok : Bool) (k : Nat) (s : State) :
    takeDispatch f ok (dropPrefix k s) = dropPrefix k (takeDispatch f ok s) := rfl

theorem dropPrefix_dropPrefix (m k : Nat) (s : State) : dropPrefix m (dropPrefix k s) = dropPrefix (k + m) s := by
  rw [dropPrefix, dropPrefix_rxbuf, List.drop_drop]; rfl

theorem takeCandidate_dropPrefix (k o n : Nat) (s : State) :
    takeCandidate o n (dropPrefix k s) = takeCandidate (k + o) n s := by
  rw [takeCandidate, takeCandidate, dropPrefix_rxbuf, dropPrefix_cfg, slice_drop, takeDispatch_dropPrefix,
    dropPrefix_dropPrefix, Nat.add_assoc]

/-- R149: a pass over the buffer without its dead offsets leaves what the pass leaves, but for dead offsets. -/
theorem Drains.trim {s t : State} (h : Drains s t) (k : Nat) (hdead : DeadBelow s.cfg s.rxbuf k) :
    ∃ j, DeadBelow t.cfg t.rxbuf j ∧ Drains (dropPrefix k s) (dropPrefix j t) := by
  cases h with
  | ends _ hnone =>
    exact ⟨k, hdead, .ends (dropPrefix k s) fun o n h => hnone _ n ((find_drop_dead _ _ k o n hdead).1 h)⟩
  | dispatch _ _ o n hfind hrest =>
    obtain ⟨o, rfl⟩ := Nat.exists_eq_add_of_le (le_of_find_of_dead _ _ k o n hdead hfind)
    refine ⟨0, deadBelow_zero _ _, .dispatch _ _ o n ((find_drop_dead _ _ k o n hdead).2 hfind) ?_⟩
    rw [takeCandidate_dropPrefix]
    exact hrest

/-- The block `v` is `s` without some dead offsets and whatever the result logs say. -/
def Trimmed (s v : State) : Prop :=
  ∃ k, DeadBelow s.cfg s.rxbuf k ∧ unlogged v = unlogged (dropPrefix k s)

/-- Equal blocks but for the result log have equal registers. -/
theorem unlogged_frame {s t : State} (h : unlogged s = unlogged t) :
    s.cfg = t.cfg ∧ s.phase = t.phase ∧ s.rxbuf = t.rxbuf ∧ s.displog = t.displog ∧ s.lastf = t.lastf ∧
      s.wakeCnt = t.wakeCnt := by
  rw [unlogged, unlogged, State.mk.injEq] at h
  obtain ⟨hcfg, hbuf, -, hphase, hlatch, hwake, -, -, hlog, -⟩ := h
  exact ⟨hcfg, hphase, hbuf, hlog, hlatch, hwake⟩

/-! ### Overflow over whole pushes -/

theorem runPass_flt (k : Nat) (s : State) : (runPass k s).flt = s.flt :=
  runPass_induction (fun t => t.flt = s.flt) (fun t _ h => by simpa using h) k s rfl

/-- R146 (b): the bound of a pass is enough for it to end. -/
theorem runPass_ended (s : State) : (runPass (passBound s) s).pass = false := by
  cases hpass : s.pass
  · rw [runPass_of_ended _ _ hpass]; exact hpass
  · exact (drains_runPass (passBound s) s hpass (Nat.lt_succ_self _)).ended.1

theorem pushWhole_next (chunk : List Byte) (s t : State) (h : pushWhole chunk s = .next t) :
    ∃ u, exec (.rxpush chunk) s = .next u ∧ t = runPass (passBound u) u := by
  unfold pushWhole at h
  split at h
  next u e => cases h; exact ⟨u, e, rfl⟩
  all_goals cases h

/-- A whole push that answers a next state ran in `RUN`; it had room, or it set the sticky flag. -/
theorem pushWhole_cases (chunk : List Byte) (s t : State) (h : pushWhole chunk s = .next t) :
    s.phase = .run ∧ ((roomFor s chunk = true ∧ t.flt = s.flt) ∨ (roomFor s chunk = false ∧ t.flt = ⟨true⟩)) := by
  obtain ⟨u, hu, rfl⟩ := pushWhole_next chunk s t h
  obtain ⟨hrun, ⟨hroom, rfl⟩ | ⟨hroom, rfl⟩⟩ := rxpush_cases chunk s u hu
  · exact ⟨hrun, .inl ⟨hroom, runPass_flt _ _⟩⟩
  · exact ⟨hrun, .inr ⟨hroom, runPass_flt _ _⟩⟩

/-- R29: the overflow flag is sticky over whole pushes. -/
theorem pushAll_rxovf (chunks : List (List Byte)) (s u : State) (h : pushAll chunks s = .next u)
    (hflag : s.flt = ⟨true⟩) : u.flt = ⟨true⟩ := by
  induction chunks generalizing s with
  | nil => cases h; exact hflag
  | cons chunk rest ih =>
    rw [pushAll] at h
    split at h
    next t e =>
      refine ih t h ?_
      obtain ⟨-, ⟨-, hflt⟩ | ⟨-, hflt⟩⟩ := pushWhole_cases chunk s t e
      · rw [hflt, hflag]
      · exact hflt
    all_goals cases h

theorem roomFor_of_shorter (s v : State) (chunk : List Byte) (hcfg : v.cfg = s.cfg)
    (hlen : v.rxbuf.length ≤ s.rxbuf.length) (h : roomFor s chunk = true) : roomFor v chunk = true := by
  rw [roomFor_iff] at h ⊢
  rw [hcfg]
  intro cap hcap
  have := h cap hcap
  omega

/-- R149: a push with room keeps two blocks alike but for dead offsets. -/
theorem Trimmed.pushWhole {s v t : State} (h : Trimmed s v) (chunk : List Byte) (hroom : roomFor s chunk = true)
    (ht : pushWhole chunk s = .next t) : ∃ w, Machine.pushWhole chunk v = .next w ∧ Trimmed t w := by
  obtain ⟨k, hdead, hv⟩ := h
  obtain ⟨hrun, -⟩ := pushWhole_cases chunk s t ht
  obtain ⟨hcfg, hphase, hbuf, -⟩ := unlogged_frame hv
  have hroomv : roomFor v chunk = true :=
    roomFor_of_shorter s v chunk hcfg (by rw [hbuf, dropPrefix_rxbuf, List.length_drop]; omega) hroom
  obtain ⟨t', ht', hdrain⟩ := pushWhole_drains chunk s hrun hroom
  rw [ht] at ht'
  cases ht'
  obtain ⟨w, hw, hdrainv⟩ := pushWhole_drains chunk v (hphase.trans hrun) hroomv
  obtain ⟨j, hdeadj, htrim⟩ := hdrain.trim k (hdead.append chunk)
  have hstart : appendChunk chunk (unlogged v) = dropPrefix k (appendChunk chunk (unlogged s)) := by
    rw [hv, dropPrefix_appendChunk k chunk (unlogged s) hdead.1]; rfl
  rw [hstart] at hdrainv
  exact ⟨w, hw, j, hdeadj, hdrainv.unique htrim⟩

theorem Trimmed.pushAll {s v u : State} (h : Trimmed s v) (chunks : List (List Byte))
    (hu : pushAll chunks s = .next u) (hflt : u.flt.rxovf = false) :
    ∃ w, Machine.pushAll chunks v = .next w ∧ Trimmed u w := by
  induction chunks generalizing s v with
  | nil => cases hu; exact ⟨v, rfl, h⟩
  | cons chunk rest ih =>
    rw [Machine.pushAll] at hu
    split at hu
    next t ht =>
      have hroom : roomFor s chunk = true := by
        obtain ⟨-, ⟨hroom, -⟩ | ⟨-, hover⟩⟩ := pushWhole_cases chunk s t ht
        · exact hroom
        · rw [pushAll_rxovf rest t u hu hover] at hflt; cases hflt
      obtain ⟨w, hw, hrel⟩ := h.pushWhole chunk hroom ht
      rw [Machine.pushAll, hw]
      exact ih hrel hu
    all_goals cases hu

end Sys2Proof.Machine
end

section
/-! The statements of 41_resync.md section 4 on whole passes and on more than one push. -/

namespace Sys2Proof.Machine

/-- Settles O27: a pass of that length drains the buffer, and each dispatch takes `MIN_LEN` bytes of it. -/
theorem passEnds : Obligations.PassEnds := by
  unfold Obligations.PassEnds
  intro s t hpass ht
  have hdrain : Drains (unlogged s) (unlogged t) := ht ▸ drains_runPass _ s hpass (Nat.lt_succ_self _)
  exact ⟨hdrain.ended.1, hdrain.bounds.1, hdrain.bounds.2, hdrain.ended.2⟩

/-- Settles O31: draining the first chunk before the second comes ends as draining both together. -/
theorem chunkingDoesNotMatter : Obligations.ChunkingDoesNotMatter := by
  unfold Obligations.ChunkingDoesNotMatter
  intro a b s hrun hpol hcap
  have hroom : roomFor s (a ++ b) = true := (roomFor_iff _ _).2 fun cap hc => by
    have := hcap cap hc
    rw [List.length_append]; omega
  have hrooma : roomFor s a = true := (roomFor_iff _ _).2 fun cap hc => by have := hcap cap hc; omega
  obtain ⟨t, ht, hdraina⟩ := pushWhole_drains a s hrun hrooma
  obtain ⟨hcfg, hphase, -⟩ := hdraina.frame
  have hlen : t.rxbuf.length ≤ (s.rxbuf ++ a).length := hdraina.bounds.1
  have hroomb : roomFor t b = true := (roomFor_iff _ _).2 fun cap hc => by
    have hc' : s.cfg.rxbufCap = some cap := hcfg ▸ hc
    have := hcap cap hc'
    rw [List.length_append] at hlen; omega
  obtain ⟨u, hu, hdrainb⟩ := pushWhole_drains b t (hphase.trans hrun) hroomb
  obtain ⟨w, hw, hdrain⟩ := pushWhole_drains (a ++ b) s hrun hroom
  refine ⟨t, u, w, ht, hu, hw, (hdraina.append b hpol hdrainb).unique ?_⟩
  have hstart : appendChunk b (appendChunk a (unlogged s)) = appendChunk (a ++ b) (unlogged s) := by
    rw [appendChunk, appendChunk_rxbuf, List.append_assoc]; rfl
  rw [hstart]
  exact hdrain

/-- Under `hold` a proper beginning of a frame holds no candidate: it would be the frame's own first candidate. -/
theorem no_candidate_of_part (c : Config) (a b : List Byte) (hpol : c.incompletePolicy = .hold) (hb : b ≠ [])
    (h : find c (a ++ b) = .candidate 0 (a ++ b).length) : ∀ o n, find c a ≠ .candidate o n := by
  intro o n ha
  rw [find_append_of_hold c a b o n hpol ha] at h
  cases h
  have hl := (find_candidate c a _ _ ha).2
  have := List.length_pos_iff.2 hb
  rw [List.length_append] at hl
  omega

/-- Settles O30: both pushes together are the push of the whole frame, and its first part alone holds no candidate. -/
theorem splitFrameIsReassembled : Obligations.SplitFrameIsReassembled := by
  unfold Obligations.SplitFrameIsReassembled
  intro a b s hrun hpass hbuf hpol hcap hvalid d hd
  obtain ⟨t, u, w, ht, hu, hw, huw⟩ := chunkingDoesNotMatter a b s hrun hpol (by simpa [hbuf] using hcap)
  have hwhole : pushWhole (a ++ b) s = .next (oneDispatch 0 (a ++ b) d s) := by
    refine pushWhole_one_frame [] (a ++ b) s hrun hpass hbuf (by simpa using hcap) hvalid.1 (by simp) d ?_
    rw [(verifies_iff _ _).2 hvalid.2, hd]
    rfl
  rw [hwhole] at hw
  cases hw
  obtain ⟨-, -, hbufu, hlogu, hlatchu, hwakeu⟩ := unlogged_frame huw
  refine ⟨t, u, ht, fun hb => ?_, hu, hlogu, hlatchu, hwakeu, hbufu.trans hbuf⟩
  have hrooma : roomFor s a = true := (roomFor_iff _ _).2 fun cap hc => by
    have := hcap cap hc
    rw [hbuf, List.length_nil]; omega
  obtain ⟨t', ht', hdrain⟩ := pushWhole_drains a s hrun hrooma
  rw [ht] at ht'
  cases ht'
  have hnone : ∀ o n, find s.cfg (s.rxbuf ++ a) ≠ .candidate o n := by
    rw [hbuf]
    exact no_candidate_of_part s.cfg a b hpol hb (find_of_one_frame s.cfg [] (a ++ b) hvalid.1 (by simp))
  have hend : unlogged t = unlogged (endPass (appendChunk a s)) :=
    hdrain.unique (.ends (appendChunk a (unlogged s)) hnone)
  obtain ⟨-, -, hbuft, hlogt, -⟩ := unlogged_frame hend
  exact ⟨hlogt, hbuft.trans (by simp [hbuf])⟩

/-- Settles O34: what is left of the two blocks stays alike but for dead offsets over every push. -/
theorem deadPrefixDoesNotMatter : Obligations.DeadPrefixDoesNotMatter := by
  unfold Obligations.DeadPrefixDoesNotMatter
  intro k chunks s u hrun hk hdead hu hflt
  have hstart : Trimmed s (dropPrefix k s) := ⟨k, ⟨hk, hdead⟩, rfl⟩
  obtain ⟨v, hv, j, -, hvu⟩ := hstart.pushAll chunks hu hflt
  obtain ⟨-, -, hbuf, hlog, hlatch, hwake⟩ := unlogged_frame hvu
  exact ⟨v, hv, hlog, hlatch, hwake, j, hbuf⟩

end Sys2Proof.Machine
end

section
/-! The steps of the I/O context when only chunks wait: one iteration, one append, and both as parts of whole pushes. -/

namespace Sys2Proof.Machine

/-- Nothing waits but chunks. -/
def OnlyChunks (s : State) : Prop := s.cmdPort = [] ∧ s.rstPin = false ∧ s.closeReq = false

theorem step_of_pass (s : State) (h : OnlyChunks s) (hpass : s.pass = true) :
    step s = .next (giveResult (.scan (find s.cfg s.rxbuf)) (scanOnce s)) := by
  rw [step_single s .io (readyAgents_io s h.1 h.2.1 h.2.2 (.inl hpass))]
  exact ioStep_of_pass s hpass

theorem step_of_chunk (s : State) (h : OnlyChunks s) (hpass : s.pass = false) (chunk : List Byte)
    (rest : List (List Byte)) (hport : s.rxPort = chunk :: rest) :
    step s = exec (.rxpush chunk) { s with rxPort := rest } := by
  rw [step_single s .io (readyAgents_io s h.1 h.2.1 h.2.2 (.inr (by rw [hport]; exact List.cons_ne_nil _ _)))]
  exact ioStep_of_chunk s chunk rest hpass hport

/-- The steps of an open pass are its iterations. -/
theorem steps_runPass (n : Nat) (s : State) (h : OnlyChunks s) : ∃ k, k ≤ n ∧ steps k s = .next (runPass n s) := by
  induction n generalizing s with
  | zero => exact ⟨0, le_rfl, rfl⟩
  | succ n ih =>
    cases hpass : s.pass
    · exact ⟨0, Nat.zero_le _, by rw [runPass_of_ended _ _ hpass, steps_zero]⟩
    · obtain ⟨k, hk, e⟩ := ih (giveResult (.scan (find s.cfg s.rxbuf)) (scanOnce s)) (by simpa [OnlyChunks] using h)
      exact ⟨k + 1, by omega, by rw [steps_succ_of_next _ _ _ (step_of_pass s h hpass), runPass_succ n s hpass, e]⟩

/-- What `RXPUSH` leaves waits and lies in the buffer as before, or with the chunk. -/
theorem rxpush_frame (chunk : List Byte) (s t : State) (h : exec (.rxpush chunk) s = .next t) :
    t.cfg = s.cfg ∧ t.cmdPort = s.cmdPort ∧ t.rxPort = s.rxPort ∧ t.rstPin = s.rstPin ∧ t.closeReq = s.closeReq ∧
      t.rxbuf.length ≤ s.rxbuf.length + chunk.length := by
  obtain ⟨-, ⟨-, rfl⟩ | ⟨-, rfl⟩⟩ := rxpush_cases chunk s t h
  · exact ⟨rfl, rfl, rfl, rfl, rfl, List.length_append.le⟩
  · exact ⟨rfl, rfl, rfl, rfl, rfl, Nat.le_add_right _ _⟩

/-- The steps from the append of the oldest chunk to the end of its pass are the whole push. -/
theorem steps_pushWhole (s : State) (h : OnlyChunks s) (hpass : s.pass = false) (chunk : List Byte)
    (rest : List (List Byte)) (hport : s.rxPort = chunk :: rest) :
    ∃ k, 1 ≤ k ∧ k ≤ (s.rxbuf.length + chunk.length) / s.cfg.minLen + 2 ∧
      steps k s = pushWhole chunk { s with rxPort := rest } := by
  have hstep := step_of_chunk s h hpass chunk rest hport
  have hpush : execRxpush chunk { s with rxPort := rest } = step s := hstep.symm
  rw [pushWhole, hpush]
  match e : step s with
  | .next t =>
    obtain ⟨hcfg, hcmd, -, hrst, hclose, hlen⟩ := rxpush_frame chunk _ t (hstep.symm.trans e)
    obtain ⟨k, hk, hrun⟩ := steps_runPass (passBound t) t ⟨hcmd.trans h.1, hrst.trans h.2.1, hclose.trans h.2.2⟩
    have hbound : passBound t ≤ (s.rxbuf.length + chunk.length) / s.cfg.minLen + 1 := by
      rw [passBound, hcfg]
      exact Nat.succ_le_succ (Nat.div_le_div_right hlen)
    exact ⟨k + 1, by omega, by omega, by rw [steps_succ_of_next _ _ _ e, hrun]⟩
  | .fault r => exact ⟨1, le_rfl, Nat.succ_le_succ (Nat.zero_le _), by rw [steps, e]⟩
  | .refused r => exact ⟨1, le_rfl, Nat.succ_le_succ (Nat.zero_le _), by rw [steps, e]⟩

/-! ### What waits on the rx port is not read by a push -/

/-- The chunks on the rx port are those of `x`. -/
def withChunks (x : List (List Byte)) (s : State) : State := { s with rxPort := x }

/-- `f` applied to the next state, if there is one. -/
def onNext (f : State → State) : Answer → Answer
  | .next s    => .next (f s)
  | .fault r   => .fault r
  | .refused r => .refused r

theorem scanOnce_withChunks (x : List (List Byte)) (s : State) :
    scanOnce (withChunks x s) = withChunks x (scanOnce s) := by
  obtain ⟨o, n, hfind⟩ | hnone := candidate_or_not s.cfg s.rxbuf
  · rw [scanOnce_of_candidate s o n hfind]
    exact scanOnce_of_candidate (withChunks x s) o n hfind
  · rw [scanOnce_of_no_candidate s hnone]
    exact scanOnce_of_no_candidate (withChunks x s) hnone

theorem runPass_withChunks (n : Nat) (x : List (List Byte)) (s : State) :
    runPass n (withChunks x s) = withChunks x (runPass n s) := by
  induction n generalizing s with
  | zero => rfl
  | succ n ih =>
    cases hpass : s.pass
    · rw [runPass_of_ended _ s hpass]
      exact runPass_of_ended _ (withChunks x s) hpass
    · rw [runPass_succ n s hpass, ← ih, runPass_succ n (withChunks x s) hpass, scanOnce_withChunks]
      rfl

theorem execRxpush_withChunks (chunk : List Byte) (x : List (List Byte)) (s : State) :
    execRxpush chunk (withChunks x s) = onNext (withChunks x) (execRxpush chunk s) := by
  have hroom : roomFor (withChunks x s) chunk = roomFor s chunk := rfl
  have hphase : (withChunks x s).phase = s.phase := rfl
  rw [execRxpush, execRxpush, hroom, hphase]
  split_ifs <;> rfl

theorem pushWhole_withChunks (chunk : List Byte) (x : List (List Byte)) (s : State) :
    pushWhole chunk (withChunks x s) = onNext (withChunks x) (pushWhole chunk s) := by
  rw [pushWhole, pushWhole, execRxpush_withChunks]
  match execRxpush chunk s with
  | .next t => exact congrArg _ (runPass_withChunks (passBound t) x t)
  | .fault r => rfl
  | .refused r => rfl

/-- A whole push leaves what waits, and no pass open. -/
theorem pushWhole_frame (chunk : List Byte) (s t : State) (h : pushWhole chunk s = .next t) :
    t.cmdPort = s.cmdPort ∧ t.rxPort = s.rxPort ∧ t.rstPin = s.rstPin ∧ t.closeReq = s.closeReq ∧ t.pass = false := by
  obtain ⟨u, hu, rfl⟩ := pushWhole_next chunk s t h
  obtain ⟨-, hcmd, hrx, hrst, hclose, -⟩ := rxpush_frame chunk s u hu
  obtain ⟨hcmd', hrx', hrst', hclose'⟩ := runPass_outside (passBound u) u
  exact ⟨hcmd'.trans hcmd, hrx'.trans hrx, hrst'.trans hrst, hclose'.trans hclose, runPass_ended u⟩

/-- The steps over all waiting chunks are the pushes one after another. -/
theorem steps_pushAll (chunks : List (List Byte)) (s : State) (h : OnlyChunks s) (hpass : s.pass = false)
    (hport : s.rxPort = chunks) : ∃ k, steps k s = pushAll chunks (withChunks [] s) := by
  induction chunks generalizing s with
  | nil => exact ⟨0, by rw [steps_zero, pushAll, ← hport]; rfl⟩
  | cons chunk rest ih =>
    obtain ⟨k, -, -, hk⟩ := steps_pushWhole s h hpass chunk rest hport
    have hfirst : steps k s = onNext (withChunks rest) (pushWhole chunk (withChunks [] s)) :=
      hk.trans (pushWhole_withChunks chunk rest (withChunks [] s))
    rw [pushAll]
    match e : pushWhole chunk (withChunks [] s) with
    | .next t =>
      rw [e] at hfirst
      obtain ⟨hcmd, hrx, hrst, hclose, hended⟩ := pushWhole_frame chunk _ t e
      obtain ⟨j, hj⟩ := ih (withChunks rest t) ⟨hcmd.trans h.1, hrst.trans h.2.1, hclose.trans h.2.2⟩ hended rfl
      have hempty : withChunks [] (withChunks rest t) = t := by
        have hrx' : t.rxPort = [] := hrx
        rw [withChunks, withChunks, ← hrx']
      exact ⟨k + j, by rw [steps_add k j s _ hfirst, hj, hempty]⟩
    | .fault r => exact ⟨k, by rw [hfirst, e]; rfl⟩
    | .refused r => exact ⟨k, by rw [hfirst, e]; rfl⟩

/-- Settles O58: an open pass, one push and all pushes, each step by step. -/
theorem stepsOfAPushAreThePush : Obligations.StepsOfAPushAreThePush := by
  unfold Obligations.StepsOfAPushAreThePush
  intro s hcmd hrst hclose
  have h : OnlyChunks s := ⟨hcmd, hrst, hclose⟩
  exact ⟨fun _ n _ => steps_runPass n s h, fun hpass chunk rest hport => steps_pushWhole s h hpass chunk rest hport,
    fun hpass => steps_pushAll s.rxPort s h hpass rfl⟩

end Sys2Proof.Machine
end
